-- ==== Sys2Proof/Word.lean ====
section
/-! DEFINITION. The two widths of the hardware: bytes, and the 16-bit words that cross the host interface
(00_scope.md R7, 30_encoding.md R50, R58). Everything else that is computed on them stands in Decode.lean and
in the files of Machine/. -/

namespace Sys2Proof

/-- An entry of S or T, an index, a key, a symbol: every datum the block stores or moves (R37). -/
abbrev Byte := BitVec 8

/-- A command word W or a response word RSP; bit 15 is the most significant (R50, R58). -/
abbrev Word := BitVec 16

end Sys2Proof
end

