-- ==== Sys2Proof/Syntax.lean ====
section
/-! DEFINITION. The seven commands as syntax: one constructor per row of spec/opcode_table.json (30_encoding.md
R52). Operands have exactly the width of their field (R53), so no operand can be out of range. -/

namespace Sys2Proof

/-- The four control registers RDREG can name (10_state.md R17). -/
inductive CtrlReg where
  | status
  | key
  | i
  | j
deriving DecidableEq, Repr

/-- A command (30_encoding.md R52). -/
inductive Instr where
  /-- NOP: do nothing (R110). -/
  | nop
  /-- KSA #k: key schedule with the key offered in KEY12, 0..4095 (R71). -/
  | ksa (key12 : BitVec 12)
  /-- KSAR: key schedule with the key drawn from the `rnd` port (R72). -/
  | ksar
  /-- CRYPT #d: process one symbol of the stream (R91). -/
  | crypt (d : Byte)
  /-- PEEK #a: read one entry of S (R111). -/
  | peek (a : Byte)
  /-- RDREG r: read a control register (R112). -/
  | rdreg (r : CtrlReg)
  /-- CLR: end the session and return to the reset state (R114). -/
  | clr
deriving DecidableEq, Repr

/-- The mnemonic of a command as spec/opcode_table.json spells it. -/
def Instr.mnemonic : Instr → String
  | .nop => "NOP"
  | .ksa _ => "KSA"
  | .ksar => "KSAR"
  | .crypt _ => "CRYPT"
  | .peek _ => "PEEK"
  | .rdreg _ => "RDREG"
  | .clr => "CLR"

end Sys2Proof
end

