-- ==== Sys2Proof/WellFormed.lean ====
section
/-! DEFINITION. Which words are commands: the opcode map of 30_encoding.md R52 as a list of rows, and the check
that a word is legal (R55). Instr itself needs no check of its own: each operand has the exact width of its
field (R53), so an ill-formed command can only be an ill-formed WORD, and that is what is checked here. -/

namespace Sys2Proof

/-- One row of the opcode map: a word W selects it when W AND mask = pattern. -/
structure OpcodeRow where
  mnemonic : String
  pattern : Word
  mask : Word
deriving DecidableEq, Repr

/-- The opcode map (R52), in the spec's order. -/
def opcodeMap : List OpcodeRow :=
  [⟨"NOP", 0x0000#16, 0xFFFF#16⟩,
   ⟨"KSA", 0x1000#16, 0xF000#16⟩,
   ⟨"KSAR", 0x2000#16, 0xFFFF#16⟩,
   ⟨"CRYPT", 0x3000#16, 0xFF00#16⟩,
   ⟨"PEEK", 0x4000#16, 0xFF00#16⟩,
   ⟨"RDREG", 0x5000#16, 0xFFFC#16⟩,
   ⟨"CLR", 0xF000#16, 0xFFFF#16⟩]

/-- The row is selected by the word (R52). -/
def OpcodeRow.selects (r : OpcodeRow) (w : Word) : Bool := w &&& r.mask == r.pattern

/-- The row a word selects: the first that matches (R52). -/
def selectedRow (w : Word) : Option OpcodeRow := opcodeMap.find? (fun r => r.selects w)

/-- The word is a legal command: some row matches it (R55). -/
def legalWord (w : Word) : Bool := opcodeMap.any (fun r => r.selects w)

/-- Every term of Instr is a command some word carries: the operand types leave nothing to check (R53). -/
def Instr.wellFormed : Instr → Bool
  | .nop => true
  | .ksa _ => true
  | .ksar => true
  | .crypt _ => true
  | .peek _ => true
  | .rdreg _ => true
  | .clr => true

end Sys2Proof
end

