-- ==== Sys2Proof/Decode.lean ====
section
/-! DEFINITION. The decoder, total on every word and rejecting by name, and after it the encoder
(30_encoding.md sections 1 to 4). -/

namespace Sys2Proof

/-- OP = W[15:12] (R50). -/
def opField (w : Word) : BitVec 4 := w.extractLsb' 12 4

/-- KEY12 of format K, and ZERO12 of format Z: W[11:0] (R51). -/
def low12 (w : Word) : BitVec 12 := w.extractLsb' 0 12

/-- ZERO4 of format B: W[11:8] (R51). -/
def zero4 (w : Word) : BitVec 4 := w.extractLsb' 8 4

/-- ARG of format B: W[7:0] (R51). -/
def argField (w : Word) : Byte := w.extractLsb' 0 8

/-- Why a word is no command (R54, R55). Each leads to ILLEGAL_COMMAND; the reason itself is not reported to the
host (R151), it only names the check that failed. -/
inductive Reject where
  /-- OP is one of 0x6..0xE (R54). -/
  | reservedOpcode (op : BitVec 4)
  /-- A must-be-zero field of the opcode's format is not zero (R55). -/
  | mustBeZero (op : BitVec 4)
  /-- RDREG with a register number above 3 (R17, R55). -/
  | noSuchRegister (number : Byte)
deriving DecidableEq, Repr

/-- The control register with this number; numbers 4..255 do not exist (R17). -/
def ctrlRegOf (n : Byte) : Option CtrlReg :=
  if n = 0#8 then some .status
  else if n = 1#8 then some .key
  else if n = 2#8 then some .i
  else if n = 3#8 then some .j
  else none

/-- The number of a control register (R17). -/
def ctrlRegNumber : CtrlReg → Byte
  | .status => 0#8
  | .key => 1#8
  | .i => 2#8
  | .j => 3#8

/-- Format Z: the command if ZERO12 is zero. -/
def decodeZ (i : Instr) (w : Word) : Except Reject Instr :=
  if low12 w = 0#12 then .ok i else .error (.mustBeZero (opField w))

/-- Format B: the command with its ARG if ZERO4 is zero. -/
def decodeB (f : Byte → Except Reject Instr) (w : Word) : Except Reject Instr :=
  if zero4 w = 0#4 then f (argField w) else .error (.mustBeZero (opField w))

/-- RDREG's ARG as a register number. -/
def decodeRdreg (n : Byte) : Except Reject Instr :=
  match ctrlRegOf n with
  | some r => .ok (.rdreg r)
  | none => .error (.noSuchRegister n)

/-- The command a word carries, or the reason it carries none (R52, R54, R55). -/
def decode (w : Word) : Except Reject Instr :=
  if opField w = 0x0#4 then decodeZ .nop w
  else if opField w = 0x1#4 then .ok (.ksa (low12 w))
  else if opField w = 0x2#4 then decodeZ .ksar w
  else if opField w = 0x3#4 then decodeB (fun d => .ok (.crypt d)) w
  else if opField w = 0x4#4 then decodeB (fun a => .ok (.peek a)) w
  else if opField w = 0x5#4 then decodeB decodeRdreg w
  else if opField w = 0xF#4 then decodeZ .clr w
  else .error (.reservedOpcode (opField w))

/-- The command an instruction of the opcode table with these bits carries. Every command is one 16-bit word
that crosses the interface whole (R37, R57), so the table's numbering of the bits is the word's own; bits above
`nbits` are zero. A number that does not fit `nbits` bits, or an `nbits` above 16, is no command. Log entry 15. -/
def decodeTableWord (nbits w : Nat) : Option Instr :=
  if nbits ≤ 16 ∧ w < 2 ^ nbits then (decode (BitVec.ofNat 16 w)).toOption else none

/-- A word of format B. -/
def wordB (op : BitVec 4) (arg : Byte) : Word := (op ++ 0#4) ++ arg

/-- The word of a command (R52, R61). -/
def encode : Instr → Word
  | .nop => 0x0#4 ++ 0#12
  | .ksa k => 0x1#4 ++ k
  | .ksar => 0x2#4 ++ 0#12
  | .crypt d => wordB 0x3#4 d
  | .peek a => wordB 0x4#4 a
  | .rdreg r => wordB 0x5#4 (ctrlRegNumber r)
  | .clr => 0xF#4 ++ 0#12

end Sys2Proof
end

