-- ==== Sys2Proof/Config.lean ====
section
/-! DEFINITION. What the spec leaves open, as constants with no body: nothing in Lean can evaluate one or prove
a value of it, so a theorem about the model holds whatever they are. The parameters fixed by the source
(00_scope.md R5) are numerals where they are used.

DESIGN CHOICE (log entry 13). A free value that is indexed by a count takes State.freeIx, which is no number of an
instance: two states with the same count have the same open values, although the spec says nothing that ties the open
values of two instances together (R24, R47, R135, R164). -/

namespace Sys2Proof

/-- FREE VALUE. The byte that a read of a location of S returns when nothing has written it since the contents
of S last became unspecified (R24, R33, R47, V1). The first argument counts those events, so that the bytes may
differ after each of them; instances with equal counts share the byte (DESIGN CHOICE, log entry 13). No command reads
such a location in a reachable state. Log entry 5. -/
opaque Config.unwrittenByte : Nat → Byte → Byte

/-- FREE VALUE. The same for a location of the key-derived table T (R13, R24, V2). Log entry 7. -/
opaque Config.unwrittenTableByte : Nat → Byte → Byte

/-- FREE VALUE. What the counter TC holds outside phase KSA_MIX (R24, R79, V2). Log entry 6. -/
opaque Config.unspecifiedTc : Nat → Byte

/-- Each implementation decides: whether T is a stored table (true) or is produced by the counter TC (false);
the two cannot be told apart (R6, R13, R45). Log entry 7. -/
opaque Config.storesTable : Bool

/-- FREE VALUE. The byte at the `rnd` port where the model has no byte given by the outside: the spec makes it a free
input of the KSAR step, any byte 0..255, under no law (R135, U5). Instances with equal counts share the byte, where the
spec gives each port its own (R164; DESIGN CHOICE, log entry 13). Log entries 2 and 4. -/
opaque Config.rndLevel : Nat → Byte

/-- FREE VALUE. What a location of permutation_memory holds after both ports wrote different bytes to it, given the
address and the two bytes; no rule ever does that (R35). Log entry 17. -/
opaque Config.clashByte : Byte → Byte → Byte → Byte

/-- FREE VALUE. What `rdata` of a port carries in a micro-operation in which that port itself writes, given its address
and its `wdata`: R32 gives `rdata` for a read only, and no rule takes it there. Log entry 17. -/
opaque Config.writingPortByte : Byte → Byte → Byte

end Sys2Proof
end

