-- ==== Sys2Proof/Machine/State.lean ====
section
/-! DEFINITION. The state of one instance of the block as plain data (10_state.md R10), the model's own fields
beside it, the ways a step can stop, and the reset state (R24). -/

namespace Sys2Proof.Machine

/-- One of the block's two byte memories: S (permutation_memory, R11, R31) or the table T (R13). Only locations
that hold a value are listed, by strictly rising address; an unlisted location holds no value (R24, R47). -/
abbrev Memory := List Host.Cell

/-- The sequencer state PHASE (R20). -/
inductive Phase where
  /-- No command in progress; the block can accept one. -/
  | idle
  /-- RC4_KSA is writing the identity permutation. -/
  | ksaInit
  /-- RC4_KSA is running the mixing iterations. -/
  | ksaMix
  /-- RC4_PRGA is running one step. -/
  | prgaStep
  /-- PEEK or RDREG is reading. -/
  | access
deriving DecidableEq, Repr

/-- The result codes (60_exceptions.md R151). They are also the values of STATUS.ERR, where `ok` is "none"
(R19); codes 4..255 and ERR values 4..15 never occur (V7). -/
inductive ResultCode where
  | ok
  | invalidArgument
  | notKeyed
  | illegalCommand
deriving DecidableEq, Repr

/-- The errors a command can end with (R150, R151). -/
inductive ErrorKind where
  | invalidArgument
  | notKeyed
  | illegalCommand
deriving DecidableEq, Repr

/-- What the outside does at the block's ports at one step of the transaction level (43_host_interface.md R130,
R132, R140, R141). -/
inductive HostEvent where
  /-- No command is presented: `cmd_valid` = 0. -/
  | quiet
  /-- A command word is presented, and the `rnd` port carries this byte when it is accepted. -/
  | command (w : Word) (rnd : Byte)
  /-- `rst_n` is asserted, or power was lost (R166, V11). -/
  | reset
deriving DecidableEq, Repr

/-- One instance of the block (R10), and with it the model's own fields (the last four). -/
structure State where
  /-- S, the permutation state, held in permutation_memory (R11, R31). -/
  pmem : Memory
  /-- T, the key-derived table, where an implementation stores it (R13, R45). -/
  t : Memory
  /-- I, the keystream cursor index i; the loop index during a key schedule (R14). -/
  i : Byte
  /-- J, the index j; the running accumulator during a key schedule (R15). -/
  j : Byte
  /-- KEY, the resolved key_index of the session, 0 when not keyed (R16). -/
  key : Byte
  /-- STATUS.KEYED (R18). -/
  keyed : Bool
  /-- STATUS.ERR, the code of the latest command that ended with an error (R19). -/
  err : ResultCode
  /-- PHASE (R20). -/
  phase : Phase
  /-- TC, the counter local to RC4_KSA (R79). -/
  tc : Byte
  /-- MODEL'S OWN: what the outside still does, first event first. Log entry 1. -/
  inputs : List HostEvent
  /-- MODEL'S OWN: the byte of the `rnd` port sampled when the command in progress was accepted (R8, R132); none
  when no command is in progress, since nothing of it is kept between commands (R23). Log entry 2. -/
  rnd : Option Byte
  /-- MODEL'S OWN: the response port after the latest step; none when `rsp_valid` = 0 (R133). Log entry 3. -/
  rsp : Option Word
  /-- MODEL'S OWN: index of the free values, advanced whenever something becomes unspecified. Log entry 8. -/
  freeIx : Nat
deriving DecidableEq, Repr

/-- The block never stops with a fault: every state and every word has a defined next state and response
(R134), every address exists (R31) and no arithmetic can fault (R155). So there is no constructor. -/
inductive Fault where
deriving DecidableEq, Repr

/-- Refusals. -/
inductive Refusal where
  /-- Raised by no command of this model: every row of the opcode table has its meaning. It would be safe: the
  model would stop where the hardware goes on. -/
  | notModelled (mnemonic : String)
deriving DecidableEq, Repr

/-- The state right after reset (R24, R180): PHASE IDLE, STATUS, KEY, I and J zero, S and T without a value.
TC, which the spec leaves unspecified and no command reads, starts at 0 (DESIGN CHOICE, log entry 6). Nothing is
presented at the ports (DESIGN CHOICE, log entry 1), and no command is in progress, so no `rnd` byte is sampled. -/
def State.reset : State where
  pmem := []
  t := []
  i := 0#8
  j := 0#8
  key := 0#8
  keyed := false
  err := .ok
  phase := .idle
  tc := 0#8
  inputs := []
  rnd := none
  rsp := none
  freeIx := 0

end Sys2Proof.Machine
end

