-- ==== Sys2Proof/Machine/Ops.lean ====
section
/-! DEFINITION. The named operations over memory and registers: byte reads and writes and the swap
(20_memory.md), the response (30_encoding.md R58), what leaves contents unspecified, and ending a command with
an error as one shared operation (60_exceptions.md R157). The spec has no return from an error: the block is
idle again and simply takes the next command (R160). -/

namespace Sys2Proof.Machine

/-- Reduction modulo 256 of a sum formed on naturals (R7, R38, R80). -/
def mod256 (n : Nat) : Byte := BitVec.ofNat 8 n

/-- The value listed for an address, if it holds one. -/
def Memory.find : Memory → Nat → Option Byte
  | [], _ => none
  | (b, u) :: m, a => if a = b then some u else Memory.find m a

/-- List a value for an address, keeping addresses in rising order. -/
def Memory.put : Memory → Nat → Byte → Memory
  | [], a, v => [(a, v)]
  | (b, u) :: m, a, v =>
    if a < b then (a, v) :: (b, u) :: m
    else if a = b then (a, v) :: m
    else (b, u) :: Memory.put m a v

/-- Every address is at least `lo`, and addresses rise strictly. -/
def Memory.risesFrom : Nat → Memory → Bool
  | _, [] => true
  | lo, (a, _) :: m => decide (lo ≤ a) && Memory.risesFrom (a + 1) m

/-- The canonical form: strictly rising addresses, all of them 0..255 (R31). An unlisted address holds no value,
and no entry can be equal to that. -/
def Memory.wf (m : Memory) : Bool := Memory.risesFrom 0 m && m.all (fun c => decide (c.1 < 256))

/-- What the location holds, if anything has been written there (R24, R47). -/
def Memory.stored (m : Memory) (a : Byte) : Option Byte := Memory.find m a.toNat

/-- A read of one byte (R33): the latest write, or, where nothing has been written, the given unspecified byte. -/
def Memory.read (m : Memory) (unwritten : Byte → Byte) (a : Byte) : Byte :=
  (Memory.stored m a).getD (unwritten a)

/-- A write of one byte: it replaces the whole byte at its address (R34). -/
def Memory.write (m : Memory) (a v : Byte) : Memory := Memory.put m a.toNat v

/-- The inputs of one port of permutation_memory in one micro-operation (R32): one read (`we` = 0) or one write
(`we` = 1) of one byte at `addr`. -/
structure PortSignals where
  addr : Byte
  we : Bool
  wdata : Byte
deriving DecidableEq, Repr

/-- What one micro-operation gives: the contents after it and the `rdata` of the two ports (R32). -/
structure PortResult where
  mem : Memory
  rdataA : Byte
  rdataB : Byte
deriving DecidableEq, Repr

/-- A port that reads S[addr]. -/
def readPort (addr : Byte) : PortSignals := { addr := addr, we := false, wdata := 0#8 }

/-- A port that writes S[addr] <- v. -/
def writePort (addr v : Byte) : PortSignals := { addr := addr, we := true, wdata := v }

/-- An idle port: a read has no side effect (R33), so it is a read whose `rdata` nobody takes. Log entry 17. -/
def idlePort : PortSignals := readPort 0#8

/-- Both ports write different bytes to one address, which no rule does (R35). -/
def portsClash (a b : PortSignals) : Bool :=
  a.we && b.we && decide (a.addr = b.addr) && !decide (a.wdata = b.wdata)

/-- What one port does to the contents (R32, R34). -/
def Memory.drive (m : Memory) (p : PortSignals) : Memory :=
  if p.we then Memory.write m p.addr p.wdata else m

/-- The `rdata` of one port (R32): the byte at `addr` before the micro-operation where the port reads (R33). Where the
port itself writes R32 says nothing of `rdata`, and it is a free value (DESIGN CHOICE, log entry 17). -/
def Memory.rdata (m : Memory) (unwritten : Byte → Byte) (p : PortSignals) : Byte :=
  if p.we then Config.writingPortByte p.addr p.wdata else Memory.read m unwritten p.addr

/-- One micro-operation of permutation_memory with ports A and B (R32): both reads see the contents before it, and
each write is visible to every later micro-operation on either port (R34). Two writes of one byte to one address
write it (R35). Log entry 17. -/
def Memory.cycle (m : Memory) (unwritten : Byte → Byte) (a b : PortSignals) : PortResult where
  mem := if portsClash a b then Memory.write m a.addr (Config.clashByte a.addr a.wdata b.wdata)
    else Memory.drive (Memory.drive m a) b
  rdataA := Memory.rdata m unwritten a
  rdataB := Memory.rdata m unwritten b

/-- swap(a, b) on the two ports (R35, R46): one micro-operation reads S[a] on port A and S[b] on port B, the next one
writes S[a] <- y on port A and S[b] <- x on port B. With a = b both write the same byte. -/
def Memory.swap (m : Memory) (unwritten : Byte → Byte) (a b : Byte) : Memory :=
  let r := Memory.cycle m unwritten (readPort a) (readPort b)
  (Memory.cycle r.mem unwritten (writePort a r.rdataB) (writePort b r.rdataA)).mem

/-- S[a] in a state (R8, R33). -/
def readS (s : State) (a : Byte) : Byte := Memory.read s.pmem (Config.unwrittenByte s.freeIx) a

/-- The number of a result code (R151). -/
def codeNumber : ResultCode → Byte
  | .ok => 0#8
  | .invalidArgument => 1#8
  | .notKeyed => 2#8
  | .illegalCommand => 3#8

/-- The result code of an error (R151). -/
def errorCode : ErrorKind → ResultCode
  | .invalidArgument => .invalidArgument
  | .notKeyed => .notKeyed
  | .illegalCommand => .illegalCommand

/-- RSP = (CODE, DATA), CODE in the high byte (R58). -/
def responseWord (c : ResultCode) (d : Byte) : Word := codeNumber c ++ d

/-- respond(c, d): the command ends and its response is at the port (R8, R58, R133). With the command goes the `rnd`
byte sampled for it, which is an input of the step and is not kept (R23). -/
def respond (c : ResultCode) (d : Byte) (s : State) : State :=
  { s with rsp := some (responseWord c d), rnd := none }

/-- T and TC are unspecified from here on (R13, R24, R79): no entry of T holds a value and TC is a free value. -/
def forgetTable (s : State) : State :=
  { s with t := [], tc := Config.unspecifiedTc s.freeIx, freeIx := s.freeIx + 1 }

/-- S, T and TC are unspecified from here on (R24, R47, R81, R114): no location holds a value. -/
def forgetContents (s : State) : State := forgetTable { s with pmem := [] }

/-- The session is over: KEYED, KEY, I and J are 0, and S, T and TC are unspecified (R26, R81, R114). -/
def endSession (s : State) : State :=
  forgetContents { s with keyed := false, key := 0#8, i := 0#8, j := 0#8 }

/-- raise E: what a failing command does, in full (R150, R157). ERR takes the code, the response is (code, 0),
PHASE stays as it is, and nothing else changes, except that INVALID_ARGUMENT ends the session (R81). -/
def raise (e : ErrorKind) (s : State) : State :=
  match e with
  | .invalidArgument => respond .invalidArgument 0#8 { endSession s with err := .invalidArgument }
  | .notKeyed => respond .notKeyed 0#8 { s with err := .notKeyed }
  | .illegalCommand => respond .illegalCommand 0#8 { s with err := .illegalCommand }

end Sys2Proof.Machine
end

