-- ==== Sys2Proof/Machine/Flags.lean ====
section
/-! DEFINITION. STATUS and the level outputs (10_state.md section 5 and R22, 43_host_interface.md R130). The block
has no arithmetic flags: the only flags are KEYED and ERR. -/

namespace Sys2Proof.Machine

/-- KEYED as a bit (R18). -/
def keyedBit (s : State) : BitVec 1 := BitVec.ofBool s.keyed

/-- The four bits of STATUS.ERR (R19). -/
def errBits : ResultCode → BitVec 4
  | .ok => 0#4
  | .invalidArgument => 1#4
  | .notKeyed => 2#4
  | .illegalCommand => 3#4

/-- STATUS = (ERR[3:0], 000, KEYED): bits 3:1 are reserved and read as 0 (R17, V6). -/
def statusByte (s : State) : Byte := (errBits s.err ++ 0#3) ++ keyedBit s

/-- The pin `busy`: 1 exactly when PHASE is not IDLE (R22). -/
def busyPin (s : State) : Bool := !decide (s.phase = .idle)

/-- The pin `keyed` (R22). -/
def keyedPin (s : State) : Bool := s.keyed

/-- The pin `err`: 1 exactly when STATUS.ERR is not 0 (R22). -/
def errPin (s : State) : Bool := !decide (s.err = .ok)

/-- The pin `cmd_ready`: 1 exactly when PHASE is IDLE; between two steps of the transaction level no response is
pending (R130, R133). -/
def cmdReady (s : State) : Bool := decide (s.phase = .idle)

/-- The pin `rsp_valid` after a step (R130, R133). -/
def rspValid (s : State) : Bool := s.rsp.isSome

end Sys2Proof.Machine
end

