-- ==== Sys2Proof/Machine/Operands.lean ====
section
/-! DEFINITION. The operand forms: a control register by name (x[n], R8, R17) and the key-derived table T(i) (R13,
R75), and the byte KSAR draws (R72). The other operands are bytes of the command word, taken as they stand (R53), and bytes of S, read by `readS`. -/

namespace Sys2Proof.Machine

/-- x[n]: a read of a control register, with no side effect (R17, R112). -/
def readCtrl (r : CtrlReg) (s : State) : Byte :=
  match r with
  | .status => statusByte s
  | .key => s.key
  | .i => s.i
  | .j => s.j

/-- T(i) = i mod KEY, a natural (R13, R75). -/
def tableEntry (key : Byte) (i : Nat) : Nat := i % key.toNat

/-- The byte a KSAR draws (R72, R135): the one sampled when the command was accepted. In a state that no acceptance
led to, the port carries any byte: a free value. Log entry 2. -/
def drawnByte (s : State) : Byte := s.rnd.getD (Config.rndLevel s.freeIx)

end Sys2Proof.Machine
end

