-- ==== Sys2Proof/Machine/Control.lean ====
section
/-! DEFINITION. The inspection and control commands NOP, PEEK, RDREG and CLR (42_access_control.md). -/

namespace Sys2Proof.Machine

/-- NOP: nothing changes, ERR included (R110). -/
def execNop (s : State) : Host.Outcome State Fault Refusal :=
  .next (respond .ok 0#8 s)

/-- The ACCESS phase has ended with this byte as the response (R111, R112). -/
def endAccess (v : Byte) (s : State) : State := respond .ok v { s with phase := .idle }

/-- PEEK: read one entry of S, refused with NOT_KEYED while KEYED = 0 (R111). -/
def execPeek (a : Byte) (s : State) : Host.Outcome State Fault Refusal :=
  .next (if s.keyed then endAccess (readS s a) s else raise .notKeyed s)

/-- RDREG: read a control register, in every state (R112). -/
def execRdreg (r : CtrlReg) (s : State) : Host.Outcome State Fault Refusal :=
  .next (endAccess (readCtrl r s) s)

/-- CLR: the registers take their reset values; S, T and TC are unspecified (R114). -/
def execClr (s : State) : Host.Outcome State Fault Refusal :=
  .next (respond .ok 0#8 { endSession s with err := .ok })

end Sys2Proof.Machine
end

