-- ==== Sys2Proof/Machine/Generation.lean ====
section
/-! DEFINITION. The generation unit RC4_PRGA: the procedure prga_step(d) and the meaning of CRYPT (41_prga.md). -/

namespace Sys2Proof.Machine

/-- prga_step(d) (R92), line by line: x is read before the swap and feeds J; t and k are read after it (R94); the
output is k XOR d (R95). -/
def prgaStep (d : Byte) (s : State) : State :=
  let unwritten := Config.unwrittenByte s.freeIx
  let i := mod256 (s.i.toNat + 1)
  let x := Memory.read s.pmem unwritten i
  let j := mod256 (s.j.toNat + x.toNat)
  let m := Memory.swap s.pmem unwritten i j
  let t := mod256 ((Memory.read m unwritten i).toNat + (Memory.read m unwritten j).toNat)
  let k := Memory.read m unwritten t
  respond .ok (k ^^^ d) { s with i := i, j := j, pmem := m, phase := .idle }

/-- CRYPT: process one symbol; refused with NOT_KEYED, before any state is written, while KEYED = 0 (R91, R96). -/
def execCrypt (d : Byte) (s : State) : Host.Outcome State Fault Refusal :=
  .next (if s.keyed then prgaStep d s else raise .notKeyed s)

end Sys2Proof.Machine
end

