-- ==== Sys2Proof/Machine/KeySchedule.lean ====
section
/-! DEFINITION. The key-schedule unit RC4_KSA: the procedure key_schedule(k) (40_ksa.md R73 to R81) and the meanings
of KSA (R71) and KSAR (R72). -/

namespace Sys2Proof.Machine

/-- Rule R74's loop: S[a] <- a for a = 0, 1, ..., 255, whatever the locations held. -/
@[irreducible] def identityWrites (m : Memory) : Memory :=
  (List.range 256).foldl (fun m a => Memory.write m (mod256 a) (mod256 a)) m

/-- One iteration of rule R76's loop on (S, J): x is read before the swap, J <- (J + x + T(I)) mod 256, and the
swap uses the new J. -/
def mixIteration (unwritten : Byte → Byte) (key : Byte) (p : Memory × Byte) (i : Nat) : Memory × Byte :=
  let x := Memory.read p.1 unwritten (mod256 i)
  let j := mod256 (p.2.toNat + x.toNat + tableEntry key i)
  (Memory.swap p.1 unwritten (mod256 i) j, j)

/-- The mixing loop: J starts at 0 (R78) and I runs through 0, 1, ..., 255 in this order (R76). -/
@[irreducible] def mixLoop (unwritten : Byte → Byte) (key : Byte) (m : Memory) : Memory × Byte :=
  (List.range 256).foldl (mixIteration unwritten key) (m, 0#8)

/-- Phase KSA_INIT (R74). -/
def initPhase (k : Nat) (s : State) : State :=
  { s with phase := .ksaInit, key := mod256 k, pmem := identityWrites s.pmem }

/-- Phase KSA_MIX (R76). -/
def mixPhase (s : State) : State :=
  let p := mixLoop (Config.unwrittenByte s.freeIx) s.key s.pmem
  { s with phase := .ksaMix, i := 255#8, pmem := p.1, j := p.2 }

/-- Completion (R77): the cursor is (0, 0), the block is keyed and idle, the response carries the key; ERR is left
alone. T and TC have no meaning from here on (R13, R79). -/
def completeSchedule (s : State) : State :=
  respond .ok s.key (forgetTable { s with i := 0#8, j := 0#8, keyed := true, phase := .idle })

/-- key_schedule(k): the key is checked before anything is written (R73). -/
def keySchedule (k : Nat) (s : State) : State :=
  if k = 0 ∨ 256 ≤ k then raise .invalidArgument s
  else completeSchedule (mixPhase (initPhase k s))

/-- KSA: key schedule with the key of the command word (R71). -/
def execKsa (key12 : BitVec 12) (s : State) : Host.Outcome State Fault Refusal :=
  .next (keySchedule key12.toNat s)

/-- KSAR: key schedule with the byte on the `rnd` port when the command was accepted (R72, R135). -/
def execKsar (s : State) : Host.Outcome State Fault Refusal :=
  .next (keySchedule (drawnByte s).toNat s)

end Sys2Proof.Machine
end

