-- ==== Sys2Proof/Machine/Dispatch.lean ====
section
/-! DEFINITION. One arm per command: each calls its meaning. -/

namespace Sys2Proof.Machine

def exec (i : Instr) (s : State) : Host.Outcome State Fault Refusal :=
  match i with
  | .nop => Sys2Proof.Machine.execNop s
  | .ksa key12 => Sys2Proof.Machine.execKsa key12 s
  | .ksar => Sys2Proof.Machine.execKsar s
  | .crypt d => Sys2Proof.Machine.execCrypt d s
  | .peek a => Sys2Proof.Machine.execPeek a s
  | .rdreg r => Sys2Proof.Machine.execRdreg r s
  | .clr => Sys2Proof.Machine.execClr s

end Sys2Proof.Machine
end

