-- ==== Sys2Proof/Machine/Port.lean ====
section
/-! DEFINITION. The command and reset ports at the transaction level (43_host_interface.md sections 1, 2 and 4,
70_reset_and_hazards.md R180): what a step does before, or instead of, running a command. -/

namespace Sys2Proof.Machine

/-- The outside presents a command with this `rnd` byte next. -/
def State.present (w : Word) (r : Byte) (s : State) : State :=
  { s with inputs := .command w r :: s.inputs }

/-- Acceptance: the command leaves the port and `rnd` is sampled (R132, R135). -/
def State.accept (r : Byte) (rest : List HostEvent) (s : State) : State :=
  { s with inputs := rest, rnd := some r }

/-- The command this step accepts, with the state that runs it: only an idle block accepts one (R130, R132). -/
def State.fetch (s : State) : Option (Word × State) :=
  match s.inputs with
  | .command w r :: rest => if s.phase = .idle then some (w, s.accept r rest) else none
  | _ => none

/-- Reset (R24, R141, R180, R182): the registers take their reset values whatever was in progress, S, T and TC are
unspecified, no response is given. What the outside does next and the free values' index are no part
of the block, so they go on. -/
def State.afterReset (rest : List HostEvent) (s : State) : State :=
  { State.reset with
    inputs := rest
    tc := Config.unspecifiedTc s.freeIx
    freeIx := s.freeIx + 1 }

/-- A step in which no command is accepted. With nothing presented the block holds its state (R166). A command
presented to a busy block is not accepted and not lost: it stays at the port (R132, R189). No response is given. -/
def State.withoutCommand (s : State) : State :=
  match s.inputs with
  | [] => { s with rsp := none }
  | .quiet :: rest => { s with inputs := rest, rsp := none }
  | .command _ _ :: _ => { s with rsp := none }
  | .reset :: rest => s.afterReset rest

/-- A word that is no command: ILLEGAL_COMMAND, and no other state changes (R55, R154). -/
def illegalCommand (s : State) : State := raise .illegalCommand s

end Sys2Proof.Machine
end

