-- ==== Sys2Proof/Machine/Step.lean ====
section
/-! DEFINITION. One step of the transaction level (43_host_interface.md R134, R142): accept the command at the port
and run it whole, or let the ports' other event happen. -/

namespace Sys2Proof.Machine

/-- The transition (R134, R142). A word that is no command answers ILLEGAL_COMMAND (R55). -/
def step (s : State) : Host.Outcome State Fault Refusal :=
  match s.fetch with
  | none => .next s.withoutCommand
  | some (w, s') =>
    match decode w with
    | .ok i => exec i s'
    | .error _ => .next (illegalCommand s')

/-- The same state with a command of the opcode table presented at the command port of an idle block, so that the
next step accepts and runs it (log entries 4 and 15). Every command is one 16-bit word, so `nbits` adds nothing:
the bits above it are zero in `w` already. DESIGN CHOICE (log entries 2 and 4): the spec makes the `rnd` byte that comes
with the word a free input of the step, any byte (R135); here it is the free value Config.rndLevel, so that nothing
can be proved of the key a KSAR placed this way draws. State.present gives the byte instead. -/
def State.withFetchWord (s : State) (_nbits w : Nat) : State :=
  { s with phase := .idle, inputs := .command (BitVec.ofNat 16 w) (Config.rndLevel s.freeIx) :: s.inputs }

end Sys2Proof.Machine
end

