-- ==== Sys2Proof/Machine/Calls.lean ====
section
/-! DEFINITION. Sequences of commands as the host issues them: a run (43_host_interface.md R143), the pseudo-commands
(30_encoding.md R62) and the rc4 call (R136 to R138). They add no behaviour: everything goes through `step`. -/

namespace Sys2Proof.Machine

/-- Give one command word, with the `rnd` byte at its acceptance, to the block, and take its response: R134's
(state, W, rnd) -> (state', RSP). None where the step gives no response. -/
def transact (w : Word) (r : Byte) (s : State) : Option (State × Word) :=
  match step (s.present w r) with
  | .next t => t.rsp.map (fun a => (t, a))
  | .fault _ => none
  | .refused _ => none

/-- A run: the words given in order, and the responses in order (R133, R143). -/
def runCommands : List (Word × Byte) → State → Option (State × List Word)
  | [], s => some (s, [])
  | (w, r) :: rest, s =>
    match transact w r s with
    | none => none
    | some (t, a) => (runCommands rest t).map (fun p => (p.1, a :: p.2))

/-- CODE of a response word (R58). -/
def responseCode (a : Word) : Byte := a.extractLsb' 8 8

/-- DATA of a response word (R58). -/
def responseData (a : Word) : Byte := a.extractLsb' 0 8

/-- The pseudo-command KS: the next keystream byte (R62, R103). -/
def keystreamCommand : Instr := .crypt 0#8

/-- CRYPT for each symbol of a stream, in order (R136). The `rnd` bytes are the ones the port happens to carry. -/
def streamWords (r : Byte) (ds : List Byte) : List (Word × Byte) := ds.map (fun d => (encode (.crypt d), r))

/-- The pseudo-command RC4 #k, d0 ... d(n-1): the call with an explicit key (R62, R136, R138). -/
def callWithKey (k : BitVec 12) (r : Byte) (ds : List Byte) : List (Word × Byte) :=
  (encode (.ksa k), r) :: streamWords r ds

/-- The pseudo-command RC4R d0 ... d(n-1): the call with the key absent, `r` being the drawn byte (R62, R137). -/
def callWithDraw (r : Byte) (ds : List Byte) : List (Word × Byte) :=
  (encode .ksar, r) :: streamWords r ds

end Sys2Proof.Machine
end

