-- ==== Sys2Proof/Machine/Instances.lean ====
section
/-! DEFINITION. Several instances of the block (60_exceptions.md R164): independent copies that share nothing. The
number of instances is the list's length (INSTANCES, R6). -/

namespace Sys2Proof.Machine

/-- A system of instances, each with its own state and its own ports. DESIGN CHOICE (log entry 13): the free values
are indexed by State.freeIx and not by the instance, so instances with equal counts have the same open bytes; the
spec leaves those of each instance open by themselves (R164). A command can show one only where a KSAR is given no
byte at its port. -/
abbrev Instances := List State

/-- Instance `n` takes one step; a step of a fault or refusal, which no instance has, would leave it as it is. -/
def stepInstance (n : Nat) (sys : Instances) : Instances :=
  sys.modify n (fun s =>
    match step s with
    | .next t => t
    | .fault _ => s
    | .refused _ => s)

end Sys2Proof.Machine
end

