-- ==== Sys2Proof/Machine/Sequencer.lean ====
section
/-! DEFINITION. A finer view of one command: the sequencer with PHASE, I and TC advancing and the two ports of
permutation_memory driven one micro-operation at a time (10_state.md R20, R21, 20_memory.md R32, R35, R36, 40_ksa.md
R79, R82, 70_reset_and_hazards.md R193). `step` does not use it: at the transaction level a command is one transition
(R134). It is here so that the phases, the units, the ports, the counter TC and a stored T have their meaning, and so
that it can be stated that both views end in the same state. Log entry 10. -/

namespace Sys2Proof.Machine

/-- Where a mixing iteration or a generation step stands, with the bytes already read. These latches belong to the
units and are no state of the block (R10); they live inside one iteration or one step. Log entry 10. -/
inductive MicroStep where
  /-- Read S[I], and form the new J. -/
  | readI
  /-- Read S[J]; x is the old S[I]. -/
  | readJ (x : Byte)
  /-- Write S[I] <- y and S[J] <- x, one on each port (R35). -/
  | exchange (x y : Byte)
  /-- Generation only: read S[t], with t = S[I] + S[J], which the swap left as y and x (R94 c). -/
  | readT (x y : Byte)
deriving DecidableEq, Repr

/-- The block in mid-command: its state and the stage of the iteration or step in progress. -/
structure Sequencer where
  block : State
  stage : MicroStep
deriving DecidableEq, Repr

/-- The units that can drive the ports of permutation_memory (R1, R36). -/
inductive PortOwner where
  /-- RC4_KSA, the key-schedule unit. -/
  | rc4Ksa
  /-- RC4_PRGA, the generation unit. -/
  | rc4Prga
  /-- The read of PEEK. -/
  | peek
deriving DecidableEq, Repr

/-- The one unit that drives the ports in a phase; nobody in IDLE (R36). -/
def portOwner (p : Phase) : Option PortOwner :=
  match p with
  | .idle => none
  | .ksaInit => some .rc4Ksa
  | .ksaMix => some .rc4Ksa
  | .prgaStep => some .rc4Prga
  | .access => some .peek

/-- The value T(I) as the implementation produces it: read from the stored table, or the counter TC (R45, R79). -/
def tableOperand (s : State) : Nat :=
  if Config.storesTable then (Memory.read s.t (Config.unwrittenTableByte s.freeIx) s.i).toNat else s.tc.toNat

/-- The next value of TC: back to 0 when it reaches KEY (R79). -/
def nextTc (key tc : Byte) : Byte := if tc.toNat + 1 = key.toNat then 0#8 else mod256 (tc.toNat + 1)

/-- A key schedule starts: the key is checked (R73), KEY is written, and I counts from 0 in KSA_INIT (R21, R74). -/
def startSchedule (k : Nat) (s : State) : State :=
  if k = 0 ∨ 256 ≤ k then raise .invalidArgument s
  else { s with phase := .ksaInit, key := mod256 k, i := 0#8 }

/-- What a command given to an idle block does at once: NOP, CLR and a command that fails are done, the others enter
their phase (R20). -/
def enterPhase (c : Instr) (s : State) : State :=
  match c with
  | .nop => respond .ok 0#8 s
  | .ksa key12 => startSchedule key12.toNat s
  | .ksar => startSchedule (drawnByte s).toNat s
  | .crypt _ => if s.keyed then { s with phase := .prgaStep } else raise .notKeyed s
  | .peek _ => if s.keyed then { s with phase := .access } else raise .notKeyed s
  | .rdreg _ => { s with phase := .access }
  | .clr => respond .ok 0#8 { endSession s with err := .ok }

/-- The command starts at the first stage. -/
def startCommand (c : Instr) (s : State) : Sequencer := { block := enterPhase c s, stage := .readI }

/-- Ports A and B in the stages of an iteration or a step, S[I] on port A and S[J] on port B; `i` is the value of I
that this stage uses (R35, R82, R92). -/
def stageSignals (i j : Byte) (m : MicroStep) : PortSignals × PortSignals :=
  match m with
  | .readI => (readPort i, idlePort)
  | .readJ _ => (idlePort, readPort j)
  | .exchange x y => (writePort i y, writePort j x)
  | .readT x y => (readPort (mod256 (x.toNat + y.toNat)), idlePort)

/-- The ports as RC4_KSA drives them: the identity write on port A in KSA_INIT, a stage of the iteration in KSA_MIX. -/
def ksaSignals (q : Sequencer) : PortSignals × PortSignals :=
  if q.block.phase = .ksaInit then (writePort q.block.i q.block.i, idlePort)
  else stageSignals q.block.i q.block.j q.stage

/-- The value of I a stage of the generation step uses: its first stage advances I (R92). -/
def prgaIndex (q : Sequencer) : Byte :=
  match q.stage with
  | .readI => mod256 (q.block.i.toNat + 1)
  | .readJ _ => q.block.i
  | .exchange _ _ => q.block.i
  | .readT _ _ => q.block.i

/-- The ports as RC4_PRGA drives them. -/
def prgaSignals (q : Sequencer) : PortSignals × PortSignals :=
  stageSignals (prgaIndex q) q.block.j q.stage

/-- The ports in phase ACCESS: PEEK reads on port A (R32), RDREG leaves them idle. -/
def accessSignals (c : Instr) : PortSignals × PortSignals :=
  match c with
  | .peek a => (readPort a, idlePort)
  | .nop => (idlePort, idlePort)
  | .ksa _ => (idlePort, idlePort)
  | .ksar => (idlePort, idlePort)
  | .crypt _ => (idlePort, idlePort)
  | .rdreg _ => (idlePort, idlePort)
  | .clr => (idlePort, idlePort)

/-- Ports A and B in this micro-operation, driven by the one unit that owns them (R32, R36). -/
def portSignals (c : Instr) (q : Sequencer) : PortSignals × PortSignals :=
  match portOwner q.block.phase with
  | none => (idlePort, idlePort)
  | some .rc4Ksa => ksaSignals q
  | some .rc4Prga => prgaSignals q
  | some .peek => accessSignals c

/-- What permutation_memory does in this micro-operation. -/
def portCycle (c : Instr) (q : Sequencer) : PortResult :=
  Memory.cycle q.block.pmem (Config.unwrittenByte q.block.freeIx) (portSignals c q).1 (portSignals c q).2

/-- One micro-operation of KSA_INIT: S[I] <- I, and T[I] <- I mod KEY where T is stored (R45, R74). After I = 255
phase KSA_MIX starts with I, J and TC at 0 (R76, R78, R79). -/
def initTick (r : PortResult) (s : State) : State :=
  let s' := { s with
    pmem := r.mem
    t := if Config.storesTable then Memory.write s.t s.i (mod256 (tableEntry s.key s.i.toNat)) else s.t }
  if s.i = 255#8 then { s' with phase := .ksaMix, i := 0#8, j := 0#8, tc := 0#8 }
  else { s' with i := mod256 (s.i.toNat + 1) }

/-- A mixing iteration has written its swap: TC advances, and after I = 255 the schedule completes (R76, R77, R79). -/
def endIteration (s : State) : State :=
  let s' := { s with tc := nextTc s.key s.tc }
  if s.i = 255#8 then completeSchedule s' else { s' with i := mod256 (s.i.toNat + 1) }

/-- One micro-operation of KSA_MIX (R76, R82): read S[I] and form J, read S[J], write both. -/
def mixTick (r : PortResult) (q : Sequencer) : Sequencer :=
  match q.stage with
  | .readI =>
    { block := { q.block with j := mod256 (q.block.j.toNat + r.rdataA.toNat + tableOperand q.block) }
      stage := .readJ r.rdataA }
  | .readJ x => { q with stage := .exchange x r.rdataB }
  | .exchange _ _ => { block := endIteration { q.block with pmem := r.mem }, stage := .readI }
  | .readT _ _ => q

/-- The output of a generation step, for the command in progress (R95). -/
def emit (c : Instr) (k : Byte) (s : State) : State :=
  match c with
  | .crypt d => respond .ok (k ^^^ d) { s with phase := .idle }
  | .nop => s
  | .ksa _ => s
  | .ksar => s
  | .peek _ => s
  | .rdreg _ => s
  | .clr => s

/-- One micro-operation of PRGA_STEP (R92): advance I, read S[I] and form J, read S[J], write both, read S[t]. -/
def prgaTick (c : Instr) (r : PortResult) (q : Sequencer) : Sequencer :=
  match q.stage with
  | .readI =>
    { block := { q.block with i := prgaIndex q, j := mod256 (q.block.j.toNat + r.rdataA.toNat) }
      stage := .readJ r.rdataA }
  | .readJ x => { q with stage := .exchange x r.rdataB }
  | .exchange x y => { block := { q.block with pmem := r.mem }, stage := .readT x y }
  | .readT _ _ => { block := emit c r.rdataA q.block, stage := .readI }

/-- The one micro-operation of phase ACCESS, for the command in progress (R111, R112). -/
def accessTick (c : Instr) (r : PortResult) (s : State) : State :=
  match c with
  | .peek _ => endAccess r.rdataA s
  | .rdreg x => endAccess (readCtrl x s) s
  | .nop => s
  | .ksa _ => s
  | .ksar => s
  | .crypt _ => s
  | .clr => s

/-- One micro-operation of the command in progress; an idle block does nothing. -/
def tick (c : Instr) (q : Sequencer) : Sequencer :=
  match q.block.phase with
  | .idle => q
  | .ksaInit => { q with block := initTick (portCycle c q) q.block }
  | .ksaMix => mixTick (portCycle c q) q
  | .prgaStep => prgaTick c (portCycle c q) q
  | .access => { q with block := accessTick c (portCycle c q) q.block }

/-- `n` micro-operations of the command in progress. -/
def ticks (c : Instr) : Nat → Sequencer → Sequencer
  | 0, q => q
  | n + 1, q => ticks c n (tick c q)

end Sys2Proof.Machine
end

