-- ==== Sys2Proof/Safety.lean ====
section
/-! DEFINITION. The terms claims are stated in: the permutation property (10_state.md R11, R12), the invariant of
R25, what two states agree on when only unspecified contents may differ (R47), and the two algorithms written a
second time as mathematics on functions from byte to byte, with no memory and no state, straight from the source's
words (40_ksa.md R70, 41_prga.md R90). -/

namespace Sys2Proof.Machine

/-- S contains each value 0..255 exactly once, at addresses 0..255 (R11, R12). -/
def IsPermutation (m : Memory) : Prop :=
  (∀ a : Byte, (Memory.stored m a).isSome) ∧ ∀ v : Byte, ∃! a : Byte, Memory.stored m a = some v

/-- The contents hold no value: every location is unspecified (R24, R47). -/
def Unspecified (m : Memory) : Prop := ∀ a : Byte, Memory.stored m a = none

/-- What holds between two commands (R20, R25). -/
structure SessionInv (s : State) : Prop where
  /-- PHASE is IDLE between commands (R20). -/
  idle : s.phase = .idle
  /-- KEYED = 0 exactly when KEY = 0 (R25 a). -/
  keyed_key : s.keyed = false ↔ s.key = 0#8
  /-- While not keyed the cursor is (0, 0) (R25 b). -/
  cursor : s.keyed = false → s.i = 0#8 ∧ s.j = 0#8
  /-- While keyed S is a permutation of 0..255 (R12, R25 c). -/
  permutation : s.keyed = true → IsPermutation s.pmem

/-- The memories are in canonical form (R31). -/
def Canonical (s : State) : Prop := Memory.wf s.pmem = true ∧ Memory.wf s.t = true

/-- The permutation state as a function (R11). -/
abbrev Perm := Byte → Byte

/-- swap S[a] and S[b], on functions (R46). -/
def swapped (f : Perm) (a b : Byte) : Perm :=
  fun c => if c = a then f b else if c = b then f a else f c

/-- The first `n` mixing iterations of the KSA with key k, from the identity and j = 0 (R70, R76, R78). -/
def ksaMath (k : Nat) : Nat → Perm × Byte
  | 0 => (id, 0#8)
  | n + 1 =>
    let p := ksaMath k n
    let i := BitVec.ofNat 8 n
    let j := p.2 + p.1 i + BitVec.ofNat 8 (n % k)
    (swapped p.1 i j, j)

/-- The permutation a key schedule with key k leaves (R70). -/
def ksaPerm (k : Nat) : Perm := (ksaMath k 256).1

/-- The PRGA at stream position `step`, on functions: (S, j) after the step, and the keystream byte. The index is
i = (step + 1) mod 256, as the source writes it (R90). -/
def prgaMath (step : Nat) (p : Perm × Byte) : (Perm × Byte) × Byte :=
  let i := BitVec.ofNat 8 (step + 1)
  let j := p.2 + p.1 i
  let f := swapped p.1 i j
  ((f, j), f (f i + f j))

/-- The keystream bytes of positions step, step + 1, ..., step + n - 1 (R90, R93). -/
def keystreamFrom : Nat → Nat → Perm × Byte → List Byte
  | _, 0, _ => []
  | step, n + 1, p => (prgaMath step p).2 :: keystreamFrom (step + 1) n (prgaMath step p).1

/-- The source's rc4(stream, key_index) as mathematics: each symbol XORed with its keystream byte (R90, R98). -/
def rc4Math (k : Nat) (ds : List Byte) : List Byte :=
  List.zipWith (fun a d => a ^^^ d) (keystreamFrom 0 ds.length (ksaPerm k, 0#8)) ds

/-- Equal but for contents the spec leaves unspecified: every register, port and pending input is the same, and S is
the same while keyed (R47, R143). -/
structure SameButUnspecified (s t : State) : Prop where
  i : s.i = t.i
  j : s.j = t.j
  key : s.key = t.key
  keyed : s.keyed = t.keyed
  err : s.err = t.err
  phase : s.phase = t.phase
  inputs : s.inputs = t.inputs
  rnd : s.rnd = t.rnd
  rsp : s.rsp = t.rsp
  pmem : s.keyed = true → s.pmem = t.pmem

/-- The same cipher state: S location by location, the cursor, the key and KEYED (R84, R99). -/
structure SameSession (s t : State) : Prop where
  pmem : ∀ a : Byte, Memory.stored s.pmem a = Memory.stored t.pmem a
  i : s.i = t.i
  j : s.j = t.j
  key : s.key = t.key
  keyed : s.keyed = t.keyed

/-- The state without what a step took from the ports and gave to them: the sampled `rnd` byte and the response, which
are no state of the block (R23). -/
def State.withoutPorts (s : State) : State := { s with rsp := none, rnd := none }

end Sys2Proof.Machine
end

