-- ==== Sys2Proof/Certificates/Slice0/Obligations.lean ====
section
/-! DEFINITION. The statements for the provers, in the spec's order: encoding, the step and reset, memory, the key
schedule, generation, inspection and control, errors, the machine-wide invariants, and the rc4 call. Each docstring
names the rules of spec/ it formalises. -/

open Sys2Proof Sys2Proof.Machine

/-! ## Encoding -/

/-- 30_encoding.md section 6 (R61): the examples' words decode to the commands they are written for. -/
def Obligations.SpecWordsDecode : Prop :=
  decode 0x0000#16 = .ok .nop ∧
  decode 0x1005#16 = .ok (.ksa 5#12) ∧
  decode 0x1100#16 = .ok (.ksa 256#12) ∧
  decode 0x2000#16 = .ok .ksar ∧
  decode 0x3048#16 = .ok (.crypt 0x48#8) ∧
  decode 0x40E0#16 = .ok (.peek 0xE0#8) ∧
  decode 0x5003#16 = .ok (.rdreg .j) ∧
  decode 0xF000#16 = .ok .clr

/-- 30_encoding.md sections 1 to 3: decoding an encoded command gives it back, for every command and operand. -/
def Obligations.DecodeEncodeAgree : Prop :=
  ∀ i : Instr, decode (encode i) = .ok i

/-- 30_encoding.md sections 1 to 3: every word has one meaning, so a word that decodes is that command's encoding. -/
def Obligations.EncodeDecodeAgree : Prop :=
  ∀ (w : Word) (i : Instr), decode w = .ok i → encode i = w

/-- R52: the decoder follows the opcode map, whose rows are mutually exclusive, and takes each operand from its
field; a word that matches no row is not a command. -/
def Obligations.DecodeFollowsOpcodeMap : Prop :=
  (∀ w : Word, (decode w).toOption.map Instr.mnemonic = (selectedRow w).map OpcodeRow.mnemonic) ∧
  (∀ (w : Word) (r₁ r₂ : OpcodeRow), r₁ ∈ opcodeMap → r₂ ∈ opcodeMap →
    r₁.selects w = true → r₂.selects w = true → r₁ = r₂) ∧
  (∀ (w : Word) (k : BitVec 12), decode w = .ok (.ksa k) → k = w.extractLsb' 0 12) ∧
  (∀ (w : Word) (d : Byte), decode w = .ok (.crypt d) → d = w.extractLsb' 0 8) ∧
  (∀ (w : Word) (a : Byte), decode w = .ok (.peek a) → a = w.extractLsb' 0 8) ∧
  (∀ (w : Word) (r : CtrlReg), decode w = .ok (.rdreg r) →
    (ctrlRegNumber r).toNat = (w.extractLsb' 0 2).toNat)

/-- R54: the opcodes 0x6 to 0xE select no command, whatever the other bits; they are the words 0x6000..0xEFFF, and
there are 36864 of them. -/
def Obligations.ReservedOpcodesSelectNothing : Prop :=
  (∀ w : Word, 0x6 ≤ (opField w).toNat ∧ (opField w).toNat ≤ 0xE →
    selectedRow w = none ∧ (decode w).toOption = none) ∧
  (∀ w : Word, (0x6 ≤ (opField w).toNat ∧ (opField w).toNat ≤ 0xE) ↔ (0x6000 ≤ w.toNat ∧ w.toNat ≤ 0xEFFF)) ∧
  (Finset.univ.filter (fun w : Word => 0x6 ≤ (opField w).toNat ∧ (opField w).toNat ≤ 0xE)).card = 36864

/-- 30_encoding.md section 4 (R56): 4615 of the 65536 words are legal and 60921 are illegal. -/
def Obligations.LegalWordCount : Prop :=
  (Finset.univ.filter (fun w : Word => legalWord w = true)).card = 4615 ∧
  (Finset.univ.filter (fun w : Word => (decode w).toOption = none)).card = 60921

/-- R55: which words are illegal, and what the block does with one: no state changes except ERR <- 3, and the
response is 0x0300. (The `rnd` byte sampled with a word is an input of the step and is not kept, R23.) -/
def Obligations.IllegalWordOnlySetsErr : Prop :=
  (∀ w : Word, (decode w).toOption = none ↔
    (0x6 ≤ (opField w).toNat ∧ (opField w).toNat ≤ 0xE) ∨
    ((opField w = 0x0#4 ∨ opField w = 0x2#4 ∨ opField w = 0xF#4) ∧ w.extractLsb' 0 12 ≠ 0#12) ∨
    ((opField w = 0x3#4 ∨ opField w = 0x4#4) ∧ w.extractLsb' 8 4 ≠ 0#4) ∨
    (opField w = 0x5#4 ∧ w.extractLsb' 2 10 ≠ 0#10)) ∧
  (∀ (s : State) (w : Word) (r : Byte), s.phase = .idle → (decode w).toOption = none →
    step (s.present w r) = .next { s with rnd := none, err := .illegalCommand, rsp := some 0x0300#16 })

/-! ## The step and reset -/

/-- 43_host_interface.md sections 1 and 2: an idle block that is presented a command accepts it, and the step is the
meaning of the decoded command at the state in which the command has left the port and `rnd` has been sampled. -/
def Obligations.StepRunsDecodedCommand : Prop :=
  ∀ (s : State) (w : Word) (r : Byte) (rest : List HostEvent) (i : Instr),
    s.phase = .idle → s.inputs = .command w r :: rest → decode w = .ok i →
    step s = exec i { s with inputs := rest, rnd := some r }

/-- 43_host_interface.md section 2 and 60_exceptions.md section 1: the transition is total; no state faults or is
refused. -/
def Obligations.EveryStepAnswersNext : Prop :=
  ∀ s : State, ∃ t, step s = .next t

/-- 43_host_interface.md sections 1 and 2, 30_encoding.md section 5, 60_exceptions.md section 1: every word given to an
idle block is accepted, runs to its end and gives exactly one response, whose code is one of the four and whose data is
0 when the code is not 0; a response word is CODE * 256 + DATA, CODE in bits 15:8 and DATA in bits 7:0 (R58, R59), and
the four codes are the numbers 0 to 3 (R151). -/
def Obligations.EveryCommandGivesOneResponse : Prop :=
  (∀ (s : State) (w : Word) (r : Byte), s.phase = .idle →
    ∃ (t : State) (c : ResultCode) (d : Byte), step (s.present w r) = .next t ∧
      t.rsp = some (responseWord c d) ∧ (c ≠ .ok → d = 0#8) ∧ t.phase = .idle ∧ t.inputs = s.inputs) ∧
  (∀ (c : ResultCode) (d : Byte), (responseWord c d).toNat = 256 * (codeNumber c).toNat + d.toNat ∧
    responseCode (responseWord c d) = codeNumber c ∧ responseData (responseWord c d) = d) ∧
  (codeNumber .ok).toNat = 0 ∧ (codeNumber .invalidArgument).toNat = 1 ∧ (codeNumber .notKeyed).toNat = 2 ∧
  (codeNumber .illegalCommand).toNat = 3

/-- 60_exceptions.md section 4 (R166): a step with nothing presented changes nothing and gives no response. That such a
step exists is the model's choice of log entry 1, and that it also leaves a busy block as it is, with the command in
progress not going on, is the model's choice of log entry 9. -/
def Obligations.QuietStepHoldsState : Prop :=
  (∀ s : State, s.inputs = [] → step s = .next { s with rsp := none }) ∧
  (∀ (s : State) (rest : List HostEvent), s.inputs = .quiet :: rest →
    step s = .next { s with inputs := rest, rsp := none })

/-- 43_host_interface.md sections 1 and 4, and the model's choice of log entry 9 that nothing of the block moves: a busy
block does not accept a command and does not lose it; a reset is taken in every phase. -/
def Obligations.BusyBlockHoldsCommand : Prop :=
  (∀ (s : State) (w : Word) (r : Byte) (rest : List HostEvent), s.phase ≠ .idle →
    s.inputs = .command w r :: rest →
    ∃ t, step s = .next t ∧ t.inputs = .command w r :: rest ∧ t = { s with rsp := none }) ∧
  (∀ (s : State) (rest : List HostEvent), s.inputs = .reset :: rest →
    ∃ t, step s = .next t ∧ t.inputs = rest ∧ t.phase = .idle ∧ t.rsp = none)

/-- R141: a reset, in whatever phase, abandons the command in progress: the state becomes the reset state of R24
with S and T unspecified, and no response is given; every command that is accepted and not cut short ends with a
response. -/
def Obligations.ResetAbandonsCommand : Prop :=
  (∀ (s : State) (rest : List HostEvent), s.inputs = .reset :: rest →
    ∃ t, step s = .next t ∧ t.phase = .idle ∧ statusByte t = 0x00#8 ∧ t.key = 0#8 ∧ t.i = 0#8 ∧ t.j = 0#8 ∧
      Unspecified t.pmem ∧ Unspecified t.t ∧ t.rsp = none ∧ t.inputs = rest) ∧
  (∀ (s : State) (w : Word) (r : Byte), s.phase = .idle → ∃ t, step (s.present w r) = .next t ∧ t.rsp.isSome)

/-- 10_state.md section 8: the state after reset, and that CRYPT and PEEK are refused in it. TC, the pending
inputs and the free values' index are the model's (log entries 1, 6 and 8) and are not claimed here. -/
def Obligations.ResetStateValues : Prop :=
  State.reset.phase = .idle ∧ statusByte State.reset = 0x00#8 ∧ State.reset.keyed = false ∧
  State.reset.err = .ok ∧ State.reset.key = 0x00#8 ∧ State.reset.i = 0x00#8 ∧ State.reset.j = 0x00#8 ∧
  Unspecified State.reset.pmem ∧ Unspecified State.reset.t ∧
  (∀ d : Byte, ∃ t, exec (.crypt d) State.reset = .next t ∧ t.rsp = some 0x0200#16) ∧
  (∀ a : Byte, ∃ t, exec (.peek a) State.reset = .next t ∧ t.rsp = some 0x0200#16)

/-- R22: the level outputs mirror the state. -/
def Obligations.StatusPinsMirrorState : Prop :=
  ∀ s : State, (busyPin s = true ↔ s.phase ≠ .idle) ∧ keyedPin s = (statusByte s).getLsbD 0 ∧
    (errPin s = true ↔ (statusByte s).extractLsb' 4 4 ≠ 0#4)

/-- 43_host_interface.md section 2 (R135): every command but KSAR ignores the `rnd` byte sampled with it, and with a step
of an idle block the byte is gone. -/
def Obligations.RndIgnoredExceptByKsar : Prop :=
  ∀ (i : Instr) (s : State) (r : Option Byte), i ≠ .ksar →
    ∃ t, exec i s = .next t ∧ exec i { s with rnd := r } = .next t ∧ t.rnd = none

/-- 10_state.md section 7 (R23): the inputs and the output of a step are not state. After the step that runs a command
no `rnd` byte is kept, no other step brings one in, a new command replaces whatever byte a state holds, and the last
response changes nothing in what comes after it. -/
def Obligations.NothingOfThePortsIsKept : Prop :=
  (∀ (s t : State) (w : Word) (r : Byte), s.phase = .idle → step (s.present w r) = .next t → t.rnd = none) ∧
  (∀ s t : State, s.rnd = none → step s = .next t → t.rnd = none) ∧
  (∀ (s : State) (w : Word) (r : Byte) (x : Option Byte), s.phase = .idle →
    step (({ s with rnd := x } : State).present w r) = step (s.present w r)) ∧
  (∀ (s : State) (x : Option Word), step { s with rsp := x } = step s)

/-- 60_exceptions.md section 4 (R164): a step of one instance leaves every other instance as it was, and depends on no
other instance. -/
def Obligations.InstancesShareNothing : Prop :=
  (∀ (sys : Instances) (n m : Nat), m ≠ n → (stepInstance n sys)[m]? = sys[m]?) ∧
  (∀ (sys₁ sys₂ : Instances) (n : Nat), sys₁[n]? = sys₂[n]? →
    (stepInstance n sys₁)[n]? = (stepInstance n sys₂)[n]?) ∧
  (∀ (sys : Instances) (n : Nat) (s t : State), sys[n]? = some s → step s = .next t →
    (stepInstance n sys)[n]? = some t)

/-! ## Memory -/

/-- R34 and R33: after any sequence of writes a read returns the latest write to its address, or what it returned
before if none of them was to that address. -/
def Obligations.ReadReturnsLatestWrite : Prop :=
  ∀ (m : Memory) (u : Byte → Byte) (ws : List (Byte × Byte)) (a : Byte),
    Memory.read (ws.foldl (fun m p => Memory.write m p.1 p.2) m) u a =
      ((ws.reverse.find? (fun p => decide (p.1 = a))).map Prod.snd).getD (Memory.read m u a)

/-- R46: after swap(a, b) S[a] holds the old S[b], S[b] holds the old S[a], every other location is unchanged; with
a = b nothing changes; and a permutation stays a permutation. -/
def Obligations.SwapExchangesTwoEntries : Prop :=
  ∀ (m : Memory) (u : Byte → Byte) (a b : Byte),
    Memory.read (Memory.swap m u a b) u a = Memory.read m u b ∧
    Memory.read (Memory.swap m u a b) u b = Memory.read m u a ∧
    (∀ c : Byte, c ≠ a → c ≠ b → Memory.stored (Memory.swap m u a b) c = Memory.stored m c) ∧
    (a = b → ∀ c : Byte, Memory.read (Memory.swap m u a b) u c = Memory.read m u c) ∧
    (IsPermutation m → IsPermutation (Memory.swap m u a b))

/-- 20_memory.md section 2 (R32, R34, R36): in one micro-operation each port does one read or one write of one byte. A
port that reads gives the byte the location held before, a write is there for every later read on either port, and a
location that neither port writes stays. One unit drives the ports: RC4_KSA in KSA_INIT and KSA_MIX, RC4_PRGA in
PRGA_STEP, the read of PEEK in ACCESS, on port A; nobody does in IDLE, where nothing moves. (That a read beside a
write sees the earlier byte is the model's choice, log entry 17; no rule pairs them. Of `rdata` of a port that itself
writes nothing is claimed.) -/
def Obligations.PortsDoOneAccessForOneOwner : Prop :=
  (∀ (m : Memory) (u : Byte → Byte) (p q : PortSignals),
    (p.we = false → (Memory.cycle m u p q).rdataA = Memory.read m u p.addr) ∧
    (q.we = false → (Memory.cycle m u p q).rdataB = Memory.read m u q.addr) ∧
    (portsClash p q = false → ∀ c : Byte, Memory.stored (Memory.cycle m u p q).mem c =
      if q.we = true ∧ c = q.addr then some q.wdata
      else if p.we = true ∧ c = p.addr then some p.wdata else Memory.stored m c) ∧
    (∀ c : Byte, (p.we = true → c ≠ p.addr) → (q.we = true → c ≠ q.addr) →
      Memory.stored (Memory.cycle m u p q).mem c = Memory.stored m c)) ∧
  (∀ (c : Instr) (q : Sequencer),
    (portOwner q.block.phase = some .rc4Ksa ↔ q.block.phase = .ksaInit ∨ q.block.phase = .ksaMix) ∧
    (portOwner q.block.phase = some .rc4Prga ↔ q.block.phase = .prgaStep) ∧
    (portOwner q.block.phase = some .peek ↔ q.block.phase = .access) ∧
    (q.block.phase = .idle → portSignals c q = (idlePort, idlePort) ∧ tick c q = q) ∧
    (∀ a : Byte, c = .peek a → q.block.phase = .access → portSignals c q = (readPort a, idlePort)))

/-- R35: in every micro-operation of every command given to an idle block, both ports write together only in the second
half of a swap, where port A writes S[I] <- y and port B writes S[J] <- x, x and y being S[I] and S[J] before it; with
I = J S[I] is left unchanged; and the ports never write different bytes to one address. -/
def Obligations.BothPortsWriteOnlyInSwap : Prop :=
  ∀ (c : Instr) (s : State) (n : Nat), s.phase = .idle →
    ∃ (q : Sequencer) (a b : PortSignals), q = ticks c n (startCommand c s) ∧ portSignals c q = (a, b) ∧
      (a.we = true → b.we = true →
        a = writePort q.block.i (readS q.block q.block.j) ∧ b = writePort q.block.j (readS q.block q.block.i) ∧
        (portCycle c q).mem =
          Memory.swap q.block.pmem (Config.unwrittenByte q.block.freeIx) q.block.i q.block.j ∧
        (q.block.i = q.block.j → ∀ x : Byte, Memory.read (portCycle c q).mem
          (Config.unwrittenByte q.block.freeIx) x = readS q.block x)) ∧
      portsClash a b = false

/-- 20_memory.md section 1 (R31): every step keeps the canonical form of both memories, from every state that has
it, whether or not a run reaches it. -/
def Obligations.StepKeepsCanonicalMemory : Prop :=
  ∀ s t : State, Canonical s → step s = .next t → Canonical t

/-! ## The key schedule -/

/-- R77: a key schedule with a valid key completes with the cursor at (0, 0), KEYED = 1, PHASE = IDLE, the key in KEY
and in the response, and ERR unchanged. -/
def Obligations.KsaValidKeyCompletes : Prop :=
  ∀ (s : State) (k : BitVec 12), 1 ≤ k.toNat → k.toNat ≤ 255 →
    ∃ t, exec (.ksa k) s = .next t ∧ t.i = 0#8 ∧ t.j = 0#8 ∧ t.keyed = true ∧ t.phase = .idle ∧
      t.key.toNat = k.toNat ∧ t.rsp = some (responseWord .ok t.key) ∧ t.err = s.err

/-- R74, R76 and R78: a key schedule with a valid key leaves in S exactly the permutation of the source's algorithm:
256 mixing iterations from the identity, whatever S held. That j starts at 0 is the spec's own choice (R78, D6): the
source does not confirm it. -/
def Obligations.KsaComputesSourcePermutation : Prop :=
  ∀ (s : State) (k : BitVec 12), 1 ≤ k.toNat → k.toNat ≤ 255 →
    ∃ t, exec (.ksa k) s = .next t ∧ ∀ a : Byte, Memory.stored t.pmem a = some (ksaPerm k.toNat a)

/-- R73 and R81: a key of 0 or of 256 and above is refused before anything else: the session is over, ERR is 1, S is
unspecified, PHASE stays, the response is 0x0100; CRYPT and PEEK then answer NOT_KEYED, and no command but a key
schedule makes the block keyed again. -/
def Obligations.KsaInvalidKeyEndsSession : Prop :=
  (∀ (s : State) (k : BitVec 12), k.toNat = 0 ∨ 256 ≤ k.toNat →
    ∃ t, exec (.ksa k) s = .next t ∧ t.keyed = false ∧ t.key = 0#8 ∧ t.i = 0#8 ∧ t.j = 0#8 ∧
      t.err = .invalidArgument ∧ t.phase = s.phase ∧ Unspecified t.pmem ∧ t.rsp = some 0x0100#16) ∧
  (∀ s : State, drawnByte s = 0#8 →
    ∃ t, exec .ksar s = .next t ∧ t.keyed = false ∧ t.key = 0#8 ∧ t.i = 0#8 ∧ t.j = 0#8 ∧
      t.err = .invalidArgument ∧ t.phase = s.phase ∧ Unspecified t.pmem ∧ t.rsp = some 0x0100#16) ∧
  (∀ (s t : State) (i : Instr), s.keyed = false → i ≠ .ksar → (∀ k, i ≠ .ksa k) → exec i s = .next t →
    t.keyed = false) ∧
  (∀ (s : State) (a : Byte), s.keyed = false →
    (∃ t, exec (.crypt a) s = .next t ∧ t.rsp = some 0x0200#16) ∧
    (∃ t, exec (.peek a) s = .next t ∧ t.rsp = some 0x0200#16))

/-- R72: KSAR is a key schedule with the byte on the `rnd` port: with rnd = k in 1..255 its effect is that of KSA #k
in every respect, the response carries the key that was drawn, and rnd = 0 fails like KSA #0. The byte drawn is the one
sampled at acceptance. (In a state with no byte sampled it is a free value, the model's choice of log entry 2.) -/
def Obligations.KsarDrawsKeyFromPort : Prop :=
  (∀ s : State, drawnByte s ≠ 0#8 →
    ∃ t, exec .ksar s = .next t ∧ exec (.ksa ((drawnByte s).setWidth 12)) s = .next t ∧ t.key = drawnByte s ∧
      t.keyed = true ∧ t.rsp = some (responseWord .ok (drawnByte s)) ∧
      ∀ a : Byte, Memory.stored t.pmem a = some (ksaPerm (drawnByte s).toNat a)) ∧
  (∀ s : State, drawnByte s = 0#8 →
    ∃ t, exec .ksar s = .next t ∧ exec (.ksa 0#12) s = .next t ∧ t.rsp = some 0x0100#16 ∧
      t.keyed = false ∧ t.err = .invalidArgument) ∧
  (∀ (s : State) (r : Byte), s.phase = .idle →
    drawnByte { s with rnd := some r } = r ∧
    step (s.present 0x2000#16 r) = exec .ksar { s with rnd := some r }) ∧
  encode .ksar = 0x2000#16

/-- R84: S, I, J, KEY and KEYED after a successful key schedule are a function of the key alone: two key schedules
with the same key, each of them given or drawn, leave the same ones from any two states. -/
def Obligations.KeyScheduleDependsOnKeyAlone : Prop :=
  (∀ (s₁ s₂ : State) (k : BitVec 12), 1 ≤ k.toNat → k.toNat ≤ 255 →
    ∃ t₁ t₂, exec (.ksa k) s₁ = .next t₁ ∧ exec (.ksa k) s₂ = .next t₂ ∧ SameSession t₁ t₂) ∧
  (∀ (s₁ s₂ : State) (k : BitVec 12), 1 ≤ k.toNat → k.toNat ≤ 255 → (drawnByte s₂).toNat = k.toNat →
    ∃ t₁ t₂, exec (.ksa k) s₁ = .next t₁ ∧ exec .ksar s₂ = .next t₂ ∧ SameSession t₁ t₂) ∧
  (∀ s₁ s₂ : State, drawnByte s₁ ≠ 0#8 → drawnByte s₁ = drawnByte s₂ →
    ∃ t₁ t₂, exec .ksar s₁ = .next t₁ ∧ exec .ksar s₂ = .next t₂ ∧ SameSession t₁ t₂)

/-- R83: after a key schedule with a valid key, given or drawn, S is a permutation of 0..255. -/
def Obligations.KeyScheduleLeavesPermutation : Prop :=
  (∀ (s : State) (k : BitVec 12), 1 ≤ k.toNat → k.toNat ≤ 255 →
    ∃ t, exec (.ksa k) s = .next t ∧ IsPermutation t.pmem) ∧
  (∀ s : State, drawnByte s ≠ 0#8 → ∃ t, exec .ksar s = .next t ∧ IsPermutation t.pmem)

/-- 40_ksa.md rule template and 10_state.md section 4: the frame of KSA and KSAR. The pending inputs and,
when the schedule succeeds, ERR are unchanged, and the sampled `rnd` byte is gone; they store to all of S and write I, J, KEY, STATUS, T and TC. -/
def Obligations.KeyScheduleFrame : Prop :=
  ∀ (s t : State) (i : Instr), (i = .ksar ∨ ∃ k, i = .ksa k) → exec i s = .next t →
    t.inputs = s.inputs ∧ t.rnd = none ∧ (t.keyed = true → t.err = s.err) ∧
    (t.keyed = false → t.phase = s.phase)

/-- R79: for every KEY in 1..255 the counter TC, started at 0 and advanced once an iteration, is I mod KEY at the start
of iteration I. -/
def Obligations.CounterGeneratesTable : Prop :=
  ∀ (key : Byte) (n : Nat), key ≠ 0#8 →
    ((nextTc key)^[n] 0#8).toNat = tableEntry key n

/-- R80: J + x + T(I) is at most 764 and its reduction modulo 256 is what two 8-bit adders that discard their carries
give. -/
def Obligations.MixingSumNeedsNoCarry : Prop :=
  ∀ (j x key : Byte) (i : Nat), key ≠ 0#8 →
    j.toNat + x.toNat + tableEntry key i ≤ 764 ∧
    mod256 (j.toNat + x.toNat + tableEntry key i) = j + x + BitVec.ofNat 8 (tableEntry key i)

/-- 10_state.md section 6 and 70_reset_and_hazards.md section 4: the sequencer, going through its phases one
micro-operation of the two ports at a time, with T stored or generated, ends in exactly the state the command's meaning
gives, and is busy until then. The bound of 1024 micro-operations is the model's choice of log entry 10 (one identity
write for each, three for each mixing iteration); R192 gives 896 as the least. -/
def Obligations.SequencerRefinesCommands : Prop :=
  ∀ (i : Instr) (s : State), s.phase = .idle →
    ∃ (n : Nat) (t : State), exec i s = .next t ∧ (ticks i n (startCommand i s)).block = t ∧ t.phase = .idle ∧
      n ≤ 1024 ∧ ∀ m, m < n → busyPin (ticks i m (startCommand i s)).block = true

/-! ## Generation -/

/-- R92: one CRYPT step of a keyed block, line by line, and what it leaves alone. -/
def Obligations.CryptRunsOneStep : Prop :=
  ∀ (s : State) (d : Byte), s.keyed = true →
    ∃ t, exec (.crypt d) s = .next t ∧
      t.i = mod256 (s.i.toNat + 1) ∧
      t.j = mod256 (s.j.toNat + (readS s t.i).toNat) ∧
      readS t t.i = readS s t.j ∧ readS t t.j = readS s t.i ∧
      (∀ a : Byte, a ≠ t.i → a ≠ t.j → Memory.stored t.pmem a = Memory.stored s.pmem a) ∧
      t.rsp = some (responseWord .ok
        (readS t (mod256 ((readS t t.i).toNat + (readS t t.j).toNat)) ^^^ d)) ∧
      t.phase = .idle ∧ t.key = s.key ∧ t.keyed = s.keyed ∧ t.err = s.err ∧ t.t = s.t

/-- R96: CRYPT on a block that is not keyed sets ERR to 2, answers 0x0200 and changes nothing else. -/
def Obligations.CryptNotKeyedIsRefused : Prop :=
  ∀ (s : State) (d : Byte), s.keyed = false →
    exec (.crypt d) s = .next { s with err := .notKeyed, rsp := some 0x0200#16, rnd := none }

/-- R95: bit n of the response's data is bit n of the keystream byte S[t], read after the swap, XOR bit n of the
symbol, and no flag changes. -/
def Obligations.CryptXorsBitByBit : Prop :=
  ∀ (s : State) (d : Byte), s.keyed = true →
    ∃ (t : State) (out : Byte), exec (.crypt d) s = .next t ∧ t.rsp = some (responseWord .ok out) ∧
      t.err = s.err ∧ t.keyed = s.keyed ∧
      ∀ n, n < 8 → out.getLsbD n =
        ((readS t (mod256 ((readS t t.i).toNat + (readS t t.j).toNat))).getLsbD n ^^ d.getLsbD n)

/-- 41_prga.md section 5 (R103): CRYPT #0 returns the keystream byte itself, and CRYPT #d returns that byte XOR d;
both leave the same state but for the response. -/
def Obligations.CryptZeroReturnsKeystream : Prop :=
  ∀ (s : State) (d : Byte), s.keyed = true →
    ∃ (t u : State) (k : Byte), exec keystreamCommand s = .next t ∧ exec (.crypt d) s = .next u ∧
      k = readS t (mod256 ((readS t t.i).toNat + (readS t t.j).toNat)) ∧
      t.rsp = some (responseWord .ok k) ∧ u.rsp = some (responseWord .ok (k ^^^ d)) ∧
      t.withoutPorts = u.withoutPorts

/-- 41_prga.md section 5 (R101): the coinciding addresses. Where I = J every read is unchanged by the step and
t = 2 * S[I]; where t = I the keystream byte is the old S[J]; where t = J it is the old S[I]. -/
def Obligations.CryptCoincidingAddresses : Prop :=
  ∀ (s : State) (d : Byte), s.keyed = true →
    ∃ (u : State) (k t : Byte), exec (.crypt d) s = .next u ∧ u.rsp = some (responseWord .ok (k ^^^ d)) ∧
      t = mod256 ((readS u u.i).toNat + (readS u u.j).toNat) ∧ k = readS u t ∧
      (u.i = u.j → (∀ a : Byte, readS u a = readS s a) ∧ t = mod256 (2 * (readS s u.i).toNat)) ∧
      (t = u.i → k = readS s u.j) ∧ (t = u.j → k = readS s u.i)

/-- 41_prga.md section 3 (R97): the step that takes I from 255 wraps it to 0 and uses S[0]; every other step adds 1 to
I; at the wrap nothing else happens: ERR, KEYED and KEY stay. -/
def Obligations.CryptCursorWraps : Prop :=
  ∀ (s : State) (d : Byte), s.keyed = true →
    ∃ t, exec (.crypt d) s = .next t ∧ t.err = s.err ∧ t.keyed = true ∧ t.key = s.key ∧
      (s.i = 255#8 → t.i = 0#8 ∧ t.j = mod256 (s.j.toNat + (readS s 0#8).toNat)) ∧
      (s.i ≠ 255#8 → t.i.toNat = s.i.toNat + 1)

/-- The frame of CRYPT (R92): only I, J, the response and the two swapped locations change, and the sampled `rnd` byte is
gone; for the refused form see
CryptNotKeyedIsRefused. -/
def Obligations.CryptFrame : Prop :=
  ∀ (s t : State) (d : Byte), s.keyed = true → exec (.crypt d) s = .next t →
    t.key = s.key ∧ t.keyed = s.keyed ∧ t.err = s.err ∧ t.t = s.t ∧ t.tc = s.tc ∧ t.inputs = s.inputs ∧
    t.rnd = none ∧ t.freeIx = s.freeIx ∧
    ∀ a : Byte, a ≠ mod256 (s.i.toNat + 1) →
      a ≠ mod256 (s.j.toNat + (readS s (mod256 (s.i.toNat + 1))).toNat) → readS t a = readS s a

/-! ## Inspection and control -/

/-- R110: NOP answers 0x0000 and changes no state, in every state (the sampled `rnd` byte is an input of the step, R23); no other word 0x0001..0x0FFF is NOP or any
command. -/
def Obligations.NopChangesNothing : Prop :=
  (∀ s : State, exec .nop s = .next { s with rsp := some 0x0000#16, rnd := none }) ∧ encode .nop = 0x0000#16 ∧
  ∀ w : Word, 0x0001 ≤ w.toNat → w.toNat ≤ 0x0FFF → (decode w).toOption = none

/-- R111: PEEK of a keyed block answers S[a] and changes nothing, at every address; while S is a permutation the 256
answers are each of 0..255 exactly once; on a block that is not keyed it sets ERR to 2, answers 0x0200 and changes
nothing else. -/
def Obligations.PeekReadsOneEntry : Prop :=
  (∀ (s : State) (a : Byte), s.keyed = true →
    exec (.peek a) s = .next { s with phase := .idle, rsp := some (responseWord .ok (readS s a)), rnd := none }) ∧
  (∀ (s : State) (a v : Byte), s.keyed = true → Memory.stored s.pmem a = some v →
    ∃ t, exec (.peek a) s = .next t ∧ t.rsp = some (responseWord .ok v)) ∧
  (∀ s : State, s.keyed = true → IsPermutation s.pmem →
    ∀ v : Byte, ∃! a : Byte, ∃ t, exec (.peek a) s = .next t ∧ t.rsp = some (responseWord .ok v)) ∧
  (∀ (s : State) (a : Byte), s.keyed = false →
    exec (.peek a) s = .next { s with err := .notKeyed, rsp := some 0x0200#16, rnd := none }) ∧
  (∀ a : Byte, (encode (.peek a)).toNat = 0x4000 + a.toNat)

/-- R112: RDREG answers the register, in every state, and changes nothing: STATUS is (ERR[3:0], 000, KEYED), the others
are KEY, I and J; while the block is not keyed those three read 0; numbers above 3 do not decode. -/
def Obligations.RdregReadsRegister : Prop :=
  (∀ (s : State) (r : CtrlReg),
    exec (.rdreg r) s = .next { s with phase := .idle, rsp := some (responseWord .ok (readCtrl r s)), rnd := none }) ∧
  (∀ s : State, (readCtrl .status s).toNat = 16 * (codeNumber s.err).toNat + s.keyed.toNat ∧
    readCtrl .key s = s.key ∧ readCtrl .i s = s.i ∧ readCtrl .j s = s.j) ∧
  (∀ s : State, SessionInv s → s.keyed = false →
    readCtrl .key s = 0#8 ∧ readCtrl .i s = 0#8 ∧ readCtrl .j s = 0#8) ∧
  (∀ r : CtrlReg, (encode (.rdreg r)).toNat = 0x5000 + (ctrlRegNumber r).toNat) ∧
  (∀ w : Word, 0x5004 ≤ w.toNat → w.toNat ≤ 0x50FF → (decode w).toOption = none)

/-- R114: CLR sets the registers to their reset values, leaves S and T without a value (TC is unspecified: nothing is
claimed of it) and answers 0x0000, in every state; afterwards all four registers read 0 and CRYPT answers NOT_KEYED; no other command clears ERR; no word
0xF001..0xFFFF is a command. -/
def Obligations.ClrReturnsToResetState : Prop :=
  (∀ s : State, ∃ t, exec .clr s = .next t ∧ t.keyed = false ∧ t.err = .ok ∧ t.key = 0#8 ∧ t.i = 0#8 ∧ t.j = 0#8 ∧
    Unspecified t.pmem ∧ Unspecified t.t ∧ t.rsp = some 0x0000#16 ∧ t.phase = s.phase ∧
    t.inputs = s.inputs ∧ t.rnd = none ∧
    (∀ r : CtrlReg, readCtrl r t = 0x00#8) ∧
    ∀ d : Byte, ∃ u, exec (.crypt d) t = .next u ∧ u.rsp = some 0x0200#16) ∧
  (∀ (i : Instr) (s t : State), exec i s = .next t → s.err ≠ .ok → t.err = .ok → i = .clr) ∧
  encode .clr = 0xF000#16 ∧
  ∀ w : Word, 0xF001 ≤ w.toNat → w.toNat ≤ 0xFFFF → (decode w).toOption = none

/-- R115: NOP, PEEK and RDREG that end with code 0 leave every piece of state as it was, and repeated they answer the
same; a PEEK that ends with NOT_KEYED changes only ERR. -/
def Obligations.InspectionHasNoSideEffects : Prop :=
  ∀ (s : State) (i : Instr), s.phase = .idle → (i = .nop ∨ (∃ a, i = .peek a) ∨ ∃ r, i = .rdreg r) →
    ∃ (t : State) (c : ResultCode) (d : Byte), exec i s = .next t ∧ t.rsp = some (responseWord c d) ∧
      (c = .ok → t.withoutPorts = s.withoutPorts ∧ exec i t = .next t) ∧
      (c ≠ .ok → c = .notKeyed ∧ (∃ a, i = .peek a) ∧
        t.withoutPorts = { s with err := .notKeyed, rsp := none, rnd := none })

/-! ## Errors and registers, over every command -/

/-- R156: decode comes before KEYED and KEYED before the argument: an illegal word answers 0x0300 whatever the state,
CRYPT and PEEK on a block that is not keyed answer 0x0200, and KSA with a bad key answers 0x0100 whether keyed or not. -/
def Obligations.ChecksHavePriority : Prop :=
  ∀ (s : State) (w : Word) (r : Byte), s.phase = .idle →
    ((decode w).toOption = none → ∃ t, step (s.present w r) = .next t ∧ t.rsp = some 0x0300#16) ∧
    (s.keyed = false → (∃ a, decode w = .ok (.crypt a) ∨ decode w = .ok (.peek a)) →
      ∃ t, step (s.present w r) = .next t ∧ t.rsp = some 0x0200#16) ∧
    ((∃ k : BitVec 12, decode w = .ok (.ksa k) ∧ (k.toNat = 0 ∨ 256 ≤ k.toNat)) ∨
        (decode w = .ok .ksar ∧ r = 0#8) →
      ∃ t, step (s.present w r) = .next t ∧ t.rsp = some 0x0100#16)

/-- R157: a command that ends with a code other than 0 sets ERR to it, answers (code, 0) and changes nothing else, with
the one exception that INVALID_ARGUMENT also clears KEYED, KEY, I and J and leaves S unspecified. -/
def Obligations.FailingCommandHasNoPartialEffect : Prop :=
  ∀ (s t : State) (w : Word) (r : Byte) (c : ResultCode) (d : Byte), s.phase = .idle →
    step (s.present w r) = .next t → t.rsp = some (responseWord c d) → c ≠ .ok →
    d = 0#8 ∧ t.err = c ∧ t.phase = .idle ∧
    (c ≠ .invalidArgument → t = { s with rnd := none, err := c, rsp := t.rsp }) ∧
    (c = .invalidArgument → t.keyed = false ∧ t.key = 0#8 ∧ t.i = 0#8 ∧ t.j = 0#8 ∧ Unspecified t.pmem ∧
      t.inputs = s.inputs ∧ ((∃ k, decode w = .ok (.ksa k)) ∨ decode w = .ok .ksar))

/-- R19: ERR holds the code of the latest command that ended with an error; a command that ends with code 0
leaves it alone, except CLR, which clears it, as reset does; its values are 0 to 3; and it gates nothing: whatever it
holds, a command does the same and answers the same, but for RDREG STATUS, which shows it. -/
def Obligations.ErrIsSticky : Prop :=
  (∀ (s t : State) (w : Word) (r : Byte) (c : ResultCode) (d : Byte), s.phase = .idle →
    step (s.present w r) = .next t → t.rsp = some (responseWord c d) →
    t.err = if c ≠ .ok then c else if decode w = .ok .clr then .ok else s.err) ∧
  (∀ (s t : State) (rest : List HostEvent), s.inputs = .reset :: rest → step s = .next t → t.err = .ok) ∧
  (∀ s : State, ((statusByte s).extractLsb' 4 4).toNat = (codeNumber s.err).toNat ∧ (codeNumber s.err).toNat ≤ 3) ∧
  (∀ (i : Instr) (s : State) (e : ResultCode),
    ∃ t u, exec i s = .next t ∧ exec i { s with err := e } = .next u ∧
      { u with err := t.err, rsp := t.rsp } = t ∧ (i ≠ .rdreg .status → u.rsp = t.rsp))

/-- R18: KEYED is set by a successful key schedule and cleared by reset, CLR and a failed key schedule, and no other
command, legal or not, changes it; while it is 0 CRYPT and PEEK are refused with NOT_KEYED. -/
def Obligations.KeyedChangesOnlyByScheduleOrClear : Prop :=
  (∀ (s t : State) (w : Word) (r : Byte), s.phase = .idle → step (s.present w r) = .next t →
    (∀ k : BitVec 12, decode w = .ok (.ksa k) → (t.keyed = true ↔ 1 ≤ k.toNat ∧ k.toNat ≤ 255)) ∧
    (decode w = .ok .ksar → (t.keyed = true ↔ r ≠ 0#8)) ∧
    (decode w = .ok .clr → t.keyed = false) ∧
    ((∀ k : BitVec 12, decode w ≠ .ok (.ksa k)) → decode w ≠ .ok .ksar → decode w ≠ .ok .clr →
      t.keyed = s.keyed)) ∧
  (∀ (s t : State) (rest : List HostEvent), s.inputs = .reset :: rest → step s = .next t → t.keyed = false) ∧
  (∀ (s : State) (a : Byte), s.keyed = false →
    (∃ t, exec (.crypt a) s = .next t ∧ t.rsp = some 0x0200#16) ∧
    (∃ t, exec (.peek a) s = .next t ∧ t.rsp = some 0x0200#16))

/-- 10_state.md sections 2 to 4 (R11, R14, R15, R16): S is written only by KSA, KSAR and CRYPT (and made unspecified by
CLR), I and J only by KSA, KSAR, CRYPT and CLR, and KEY only by KSA, KSAR and CLR. -/
def Obligations.RegistersWrittenOnlyByTheirCommands : Prop :=
  ∀ (i : Instr) (s t : State), exec i s = .next t → i ≠ .ksar → (∀ k, i ≠ .ksa k) → i ≠ .clr →
    t.key = s.key ∧ t.t = s.t ∧ t.tc = s.tc ∧
    ((∀ d, i ≠ .crypt d) → t.i = s.i ∧ t.j = s.j ∧ t.pmem = s.pmem)

/-! ## Invariants of every step -/

/-- The invariant of R25 holds at reset. -/
def Obligations.InvariantHoldsAtReset : Prop := SessionInv State.reset

/-- R25 and R12: every step, of a command, legal or not, of a reset or of nothing, keeps the invariant: KEYED = 1
exactly when KEY is in 1..255, the cursor is (0, 0) while not keyed, S is a permutation of 0..255 while keyed, PHASE is
IDLE; and STATUS[3:1] reads 0 and ERR is at most 3 in every state. So it holds after any number of steps from reset,
whatever the outside does. -/
def Obligations.StepKeepsInvariant : Prop :=
  (∀ s t : State, SessionInv s → step s = .next t → SessionInv t) ∧
  (∀ s : State, SessionInv s → (s.keyed = true ↔ (1 ≤ s.key.toNat ∧ s.key.toNat ≤ 255))) ∧
  (∀ s : State, (statusByte s).extractLsb' 1 3 = 0#3 ∧ ((statusByte s).extractLsb' 4 4).toNat ≤ 3) ∧
  (∀ (n : Nat) (events : List HostEvent),
    ∃ t, Host.Core.run Sys2Proof.core n { State.reset with inputs := events } = .next t ∧ SessionInv t)

/-- 20_memory.md section 5 (R47) in the model's form of log entry 5: while the block is not keyed no location of S
holds a value, and every step keeps that, from every state that has it. -/
def Obligations.NotKeyedHoldsNoValue : Prop :=
  ∀ s t : State, (s.keyed = false → Unspecified s.pmem) → step s = .next t → t.keyed = false → Unspecified t.pmem

/-- R47: the unspecified bytes of S never reach the host. Two machines that differ only in contents the spec leaves
unspecified, given the same inputs, agree on every register, pin and response after any number of steps. -/
def Obligations.UnspecifiedBytesNeverReachHost : Prop :=
  ∀ (n : Nat) (s₁ s₂ : State), Canonical s₁ → Canonical s₂ →
    (s₁.keyed = true → IsPermutation s₁.pmem) → SameButUnspecified s₁ s₂ →
    ∃ t₁ t₂, Host.Core.run Sys2Proof.core n s₁ = .next t₁ ∧ Host.Core.run Sys2Proof.core n s₂ = .next t₂ ∧
      SameButUnspecified t₁ t₂

/-! ## The rc4 call -/

/-- R93: the index i of every step is (step + 1) mod 256: after n CRYPT commands of a session I is n mod 256, for
streams of any length. -/
def Obligations.CursorFollowsStreamPosition : Prop :=
  ∀ (s : State) (r : Byte) (ds : List Byte), s.phase = .idle → s.keyed = true → s.i = 0#8 →
    ∃ t as, runCommands (streamWords r ds) s = some (t, as) ∧ as.length = ds.length ∧
      t.i.toNat = ds.length % 256

/-- R136 and 41_prga.md R90: the call with an explicit valid key, given to an idle block in any state, answers the key
and then exactly the source's rc4 of the stream, symbol by symbol. That the key schedule's j starts at 0 is the spec's
own choice (R78, D6): the source does not confirm it. -/
def Obligations.CallComputesSourceRc4 : Prop :=
  ∀ (s : State) (k : BitVec 12) (r : Byte) (ds : List Byte), s.phase = .idle → 1 ≤ k.toNat → k.toNat ≤ 255 →
    ∃ t, runCommands (callWithKey k r ds) s =
      some (t, responseWord .ok (k.setWidth 8) :: (rc4Math k.toNat ds).map (responseWord .ok))

/-- R136: a call whose key is refused fails: the key schedule answers 0x0100, and every CRYPT the host sends all the
same answers NOT_KEYED. -/
def Obligations.CallWithBadKeyFails : Prop :=
  ∀ (s : State) (k : BitVec 12) (r : Byte) (ds : List Byte), s.phase = .idle → (k.toNat = 0 ∨ 256 ≤ k.toNat) →
    ∃ t, runCommands (callWithKey k r ds) s = some (t, 0x0100#16 :: ds.map (fun _ => 0x0200#16))

/-- R137: the call with the key absent answers as the call with the drawn key does, and that key comes back in its
first response. -/
def Obligations.DrawnKeyCallEqualsKeyedCall : Prop :=
  ∀ (s : State) (r : Byte) (ds : List Byte), s.phase = .idle → r ≠ 0#8 →
    ∃ t as, runCommands (callWithDraw r ds) s = some (t, responseWord .ok r :: as) ∧
      runCommands (callWithKey (r.setWidth 12) r ds) s = some (t, responseWord .ok r :: as)

/-- R98: RC4 is symmetric: running the call on its own output, with the same key, from any two states, gives the stream
back. -/
def Obligations.CallIsInvolution : Prop :=
  ∀ (s₁ s₂ : State) (k : BitVec 12) (r₁ r₂ : Byte) (ds : List Byte),
    s₁.phase = .idle → s₂.phase = .idle → 1 ≤ k.toNat → k.toNat ≤ 255 →
    ∃ (t₁ t₂ : State) (cs : List Byte), cs.length = ds.length ∧
      runCommands (callWithKey k r₁ ds) s₁ =
        some (t₁, responseWord .ok (k.setWidth 8) :: cs.map (responseWord .ok)) ∧
      runCommands (callWithKey k r₂ cs) s₂ =
        some (t₂, responseWord .ok (k.setWidth 8) :: ds.map (responseWord .ok))

/-- R99: the keystream byte of a step depends only on the key and the position, and the state after n CRYPT commands
only on the key and n, not on the symbols given. -/
def Obligations.StateIndependentOfSymbols : Prop :=
  ∀ (s₁ s₂ : State) (k : BitVec 12) (r₁ r₂ : Byte) (ds₁ ds₂ : List Byte),
    s₁.phase = .idle → s₂.phase = .idle → 1 ≤ k.toNat → k.toNat ≤ 255 → ds₁.length = ds₂.length →
    ∃ (t₁ t₂ : State) (ks : List Byte), ks.length = ds₁.length ∧
      runCommands (callWithKey k r₁ ds₁) s₁ = some (t₁, responseWord .ok (k.setWidth 8) ::
        List.zipWith (fun a d => responseWord .ok (a ^^^ d)) ks ds₁) ∧
      runCommands (callWithKey k r₂ ds₂) s₂ = some (t₂, responseWord .ok (k.setWidth 8) ::
        List.zipWith (fun a d => responseWord .ok (a ^^^ d)) ks ds₂) ∧
      SameSession t₁ t₂
end

