-- ==== Sys2Proof/Laws/State.lean ====
section
/-! SUPPORT. What each named update of State does to each field, one lemma per field per update, so that no proof
unfolds a record update. -/

namespace Sys2Proof.Machine


/-! `respond` -/

@[simp] theorem respond_pmem (c : ResultCode) (d : Byte) (s : State) : (respond c d s).pmem = s.pmem := rfl
@[simp] theorem respond_t (c : ResultCode) (d : Byte) (s : State) : (respond c d s).t = s.t := rfl
@[simp] theorem respond_i (c : ResultCode) (d : Byte) (s : State) : (respond c d s).i = s.i := rfl
@[simp] theorem respond_j (c : ResultCode) (d : Byte) (s : State) : (respond c d s).j = s.j := rfl
@[simp] theorem respond_key (c : ResultCode) (d : Byte) (s : State) : (respond c d s).key = s.key := rfl
@[simp] theorem respond_keyed (c : ResultCode) (d : Byte) (s : State) : (respond c d s).keyed = s.keyed := rfl
@[simp] theorem respond_err (c : ResultCode) (d : Byte) (s : State) : (respond c d s).err = s.err := rfl
@[simp] theorem respond_phase (c : ResultCode) (d : Byte) (s : State) : (respond c d s).phase = s.phase := rfl
@[simp] theorem respond_tc (c : ResultCode) (d : Byte) (s : State) : (respond c d s).tc = s.tc := rfl
@[simp] theorem respond_inputs (c : ResultCode) (d : Byte) (s : State) : (respond c d s).inputs = s.inputs := rfl
@[simp] theorem respond_rnd (c : ResultCode) (d : Byte) (s : State) : (respond c d s).rnd = none := rfl
@[simp] theorem respond_rsp (c : ResultCode) (d : Byte) (s : State) : (respond c d s).rsp = some (responseWord c d) := rfl
@[simp] theorem respond_freeIx (c : ResultCode) (d : Byte) (s : State) : (respond c d s).freeIx = s.freeIx := rfl

/-! `forgetTable` -/

@[simp] theorem forgetTable_pmem (s : State) : (forgetTable s).pmem = s.pmem := rfl
@[simp] theorem forgetTable_t (s : State) : (forgetTable s).t = [] := rfl
@[simp] theorem forgetTable_i (s : State) : (forgetTable s).i = s.i := rfl
@[simp] theorem forgetTable_j (s : State) : (forgetTable s).j = s.j := rfl
@[simp] theorem forgetTable_key (s : State) : (forgetTable s).key = s.key := rfl
@[simp] theorem forgetTable_keyed (s : State) : (forgetTable s).keyed = s.keyed := rfl
@[simp] theorem forgetTable_err (s : State) : (forgetTable s).err = s.err := rfl
@[simp] theorem forgetTable_phase (s : State) : (forgetTable s).phase = s.phase := rfl
@[simp] theorem forgetTable_tc (s : State) : (forgetTable s).tc = Config.unspecifiedTc s.freeIx := rfl
@[simp] theorem forgetTable_inputs (s : State) : (forgetTable s).inputs = s.inputs := rfl
@[simp] theorem forgetTable_rnd (s : State) : (forgetTable s).rnd = s.rnd := rfl
@[simp] theorem forgetTable_rsp (s : State) : (forgetTable s).rsp = s.rsp := rfl
@[simp] theorem forgetTable_freeIx (s : State) : (forgetTable s).freeIx = s.freeIx + 1 := rfl

/-! `forgetContents` -/

@[simp] theorem forgetContents_pmem (s : State) : (forgetContents s).pmem = [] := rfl
@[simp] theorem forgetContents_t (s : State) : (forgetContents s).t = [] := rfl
@[simp] theorem forgetContents_i (s : State) : (forgetContents s).i = s.i := rfl
@[simp] theorem forgetContents_j (s : State) : (forgetContents s).j = s.j := rfl
@[simp] theorem forgetContents_key (s : State) : (forgetContents s).key = s.key := rfl
@[simp] theorem forgetContents_keyed (s : State) : (forgetContents s).keyed = s.keyed := rfl
@[simp] theorem forgetContents_err (s : State) : (forgetContents s).err = s.err := rfl
@[simp] theorem forgetContents_phase (s : State) : (forgetContents s).phase = s.phase := rfl
@[simp] theorem forgetContents_tc (s : State) : (forgetContents s).tc = Config.unspecifiedTc s.freeIx := rfl
@[simp] theorem forgetContents_inputs (s : State) : (forgetContents s).inputs = s.inputs := rfl
@[simp] theorem forgetContents_rnd (s : State) : (forgetContents s).rnd = s.rnd := rfl
@[simp] theorem forgetContents_rsp (s : State) : (forgetContents s).rsp = s.rsp := rfl
@[simp] theorem forgetContents_freeIx (s : State) : (forgetContents s).freeIx = s.freeIx + 1 := rfl

/-! `endSession` -/

@[simp] theorem endSession_pmem (s : State) : (endSession s).pmem = [] := rfl
@[simp] theorem endSession_t (s : State) : (endSession s).t = [] := rfl
@[simp] theorem endSession_i (s : State) : (endSession s).i = 0#8 := rfl
@[simp] theorem endSession_j (s : State) : (endSession s).j = 0#8 := rfl
@[simp] theorem endSession_key (s : State) : (endSession s).key = 0#8 := rfl
@[simp] theorem endSession_keyed (s : State) : (endSession s).keyed = false := rfl
@[simp] theorem endSession_err (s : State) : (endSession s).err = s.err := rfl
@[simp] theorem endSession_phase (s : State) : (endSession s).phase = s.phase := rfl
@[simp] theorem endSession_tc (s : State) : (endSession s).tc = Config.unspecifiedTc s.freeIx := rfl
@[simp] theorem endSession_inputs (s : State) : (endSession s).inputs = s.inputs := rfl
@[simp] theorem endSession_rnd (s : State) : (endSession s).rnd = s.rnd := rfl
@[simp] theorem endSession_rsp (s : State) : (endSession s).rsp = s.rsp := rfl
@[simp] theorem endSession_freeIx (s : State) : (endSession s).freeIx = s.freeIx + 1 := rfl

/-! `endAccess` -/

@[simp] theorem endAccess_pmem (v : Byte) (s : State) : (endAccess v s).pmem = s.pmem := rfl
@[simp] theorem endAccess_t (v : Byte) (s : State) : (endAccess v s).t = s.t := rfl
@[simp] theorem endAccess_i (v : Byte) (s : State) : (endAccess v s).i = s.i := rfl
@[simp] theorem endAccess_j (v : Byte) (s : State) : (endAccess v s).j = s.j := rfl
@[simp] theorem endAccess_key (v : Byte) (s : State) : (endAccess v s).key = s.key := rfl
@[simp] theorem endAccess_keyed (v : Byte) (s : State) : (endAccess v s).keyed = s.keyed := rfl
@[simp] theorem endAccess_err (v : Byte) (s : State) : (endAccess v s).err = s.err := rfl
@[simp] theorem endAccess_phase (v : Byte) (s : State) : (endAccess v s).phase = .idle := rfl
@[simp] theorem endAccess_tc (v : Byte) (s : State) : (endAccess v s).tc = s.tc := rfl
@[simp] theorem endAccess_inputs (v : Byte) (s : State) : (endAccess v s).inputs = s.inputs := rfl
@[simp] theorem endAccess_rnd (v : Byte) (s : State) : (endAccess v s).rnd = none := rfl
@[simp] theorem endAccess_rsp (v : Byte) (s : State) : (endAccess v s).rsp = some (responseWord .ok v) := rfl
@[simp] theorem endAccess_freeIx (v : Byte) (s : State) : (endAccess v s).freeIx = s.freeIx := rfl

/-! `initPhase` -/

@[simp] theorem initPhase_pmem (k : Nat) (s : State) : (initPhase k s).pmem = identityWrites s.pmem := rfl
@[simp] theorem initPhase_t (k : Nat) (s : State) : (initPhase k s).t = s.t := rfl
@[simp] theorem initPhase_i (k : Nat) (s : State) : (initPhase k s).i = s.i := rfl
@[simp] theorem initPhase_j (k : Nat) (s : State) : (initPhase k s).j = s.j := rfl
@[simp] theorem initPhase_key (k : Nat) (s : State) : (initPhase k s).key = mod256 k := rfl
@[simp] theorem initPhase_keyed (k : Nat) (s : State) : (initPhase k s).keyed = s.keyed := rfl
@[simp] theorem initPhase_err (k : Nat) (s : State) : (initPhase k s).err = s.err := rfl
@[simp] theorem initPhase_phase (k : Nat) (s : State) : (initPhase k s).phase = .ksaInit := rfl
@[simp] theorem initPhase_tc (k : Nat) (s : State) : (initPhase k s).tc = s.tc := rfl
@[simp] theorem initPhase_inputs (k : Nat) (s : State) : (initPhase k s).inputs = s.inputs := rfl
@[simp] theorem initPhase_rnd (k : Nat) (s : State) : (initPhase k s).rnd = s.rnd := rfl
@[simp] theorem initPhase_rsp (k : Nat) (s : State) : (initPhase k s).rsp = s.rsp := rfl
@[simp] theorem initPhase_freeIx (k : Nat) (s : State) : (initPhase k s).freeIx = s.freeIx := rfl

/-! `mixPhase` -/

@[simp] theorem mixPhase_pmem (s : State) : (mixPhase s).pmem = (mixLoop (Config.unwrittenByte s.freeIx) s.key s.pmem).1 := rfl
@[simp] theorem mixPhase_t (s : State) : (mixPhase s).t = s.t := rfl
@[simp] theorem mixPhase_i (s : State) : (mixPhase s).i = 255#8 := rfl
@[simp] theorem mixPhase_j (s : State) : (mixPhase s).j = (mixLoop (Config.unwrittenByte s.freeIx) s.key s.pmem).2 := rfl
@[simp] theorem mixPhase_key (s : State) : (mixPhase s).key = s.key := rfl
@[simp] theorem mixPhase_keyed (s : State) : (mixPhase s).keyed = s.keyed := rfl
@[simp] theorem mixPhase_err (s : State) : (mixPhase s).err = s.err := rfl
@[simp] theorem mixPhase_phase (s : State) : (mixPhase s).phase = .ksaMix := rfl
@[simp] theorem mixPhase_tc (s : State) : (mixPhase s).tc = s.tc := rfl
@[simp] theorem mixPhase_inputs (s : State) : (mixPhase s).inputs = s.inputs := rfl
@[simp] theorem mixPhase_rnd (s : State) : (mixPhase s).rnd = s.rnd := rfl
@[simp] theorem mixPhase_rsp (s : State) : (mixPhase s).rsp = s.rsp := rfl
@[simp] theorem mixPhase_freeIx (s : State) : (mixPhase s).freeIx = s.freeIx := rfl

/-! `completeSchedule` -/

@[simp] theorem completeSchedule_pmem (s : State) : (completeSchedule s).pmem = s.pmem := rfl
@[simp] theorem completeSchedule_t (s : State) : (completeSchedule s).t = [] := rfl
@[simp] theorem completeSchedule_i (s : State) : (completeSchedule s).i = 0#8 := rfl
@[simp] theorem completeSchedule_j (s : State) : (completeSchedule s).j = 0#8 := rfl
@[simp] theorem completeSchedule_key (s : State) : (completeSchedule s).key = s.key := rfl
@[simp] theorem completeSchedule_keyed (s : State) : (completeSchedule s).keyed = true := rfl
@[simp] theorem completeSchedule_err (s : State) : (completeSchedule s).err = s.err := rfl
@[simp] theorem completeSchedule_phase (s : State) : (completeSchedule s).phase = .idle := rfl
@[simp] theorem completeSchedule_tc (s : State) : (completeSchedule s).tc = Config.unspecifiedTc s.freeIx := rfl
@[simp] theorem completeSchedule_inputs (s : State) : (completeSchedule s).inputs = s.inputs := rfl
@[simp] theorem completeSchedule_rnd (s : State) : (completeSchedule s).rnd = none := rfl
@[simp] theorem completeSchedule_rsp (s : State) : (completeSchedule s).rsp = some (responseWord .ok s.key) := rfl
@[simp] theorem completeSchedule_freeIx (s : State) : (completeSchedule s).freeIx = s.freeIx + 1 := rfl

/-! `State.present` -/

@[simp] theorem State.present_pmem (w : Word) (r : Byte) (s : State) : (s.present w r).pmem = s.pmem := rfl
@[simp] theorem State.present_t (w : Word) (r : Byte) (s : State) : (s.present w r).t = s.t := rfl
@[simp] theorem State.present_i (w : Word) (r : Byte) (s : State) : (s.present w r).i = s.i := rfl
@[simp] theorem State.present_j (w : Word) (r : Byte) (s : State) : (s.present w r).j = s.j := rfl
@[simp] theorem State.present_key (w : Word) (r : Byte) (s : State) : (s.present w r).key = s.key := rfl
@[simp] theorem State.present_keyed (w : Word) (r : Byte) (s : State) : (s.present w r).keyed = s.keyed := rfl
@[simp] theorem State.present_err (w : Word) (r : Byte) (s : State) : (s.present w r).err = s.err := rfl
@[simp] theorem State.present_phase (w : Word) (r : Byte) (s : State) : (s.present w r).phase = s.phase := rfl
@[simp] theorem State.present_tc (w : Word) (r : Byte) (s : State) : (s.present w r).tc = s.tc := rfl
@[simp] theorem State.present_inputs (w : Word) (r : Byte) (s : State) : (s.present w r).inputs = .command w r :: s.inputs := rfl
@[simp] theorem State.present_rnd (w : Word) (r : Byte) (s : State) : (s.present w r).rnd = s.rnd := rfl
@[simp] theorem State.present_rsp (w : Word) (r : Byte) (s : State) : (s.present w r).rsp = s.rsp := rfl
@[simp] theorem State.present_freeIx (w : Word) (r : Byte) (s : State) : (s.present w r).freeIx = s.freeIx := rfl

/-! `State.accept` -/

@[simp] theorem State.accept_pmem (r : Byte) (rest : List HostEvent) (s : State) : (s.accept r rest).pmem = s.pmem := rfl
@[simp] theorem State.accept_t (r : Byte) (rest : List HostEvent) (s : State) : (s.accept r rest).t = s.t := rfl
@[simp] theorem State.accept_i (r : Byte) (rest : List HostEvent) (s : State) : (s.accept r rest).i = s.i := rfl
@[simp] theorem State.accept_j (r : Byte) (rest : List HostEvent) (s : State) : (s.accept r rest).j = s.j := rfl
@[simp] theorem State.accept_key (r : Byte) (rest : List HostEvent) (s : State) : (s.accept r rest).key = s.key := rfl
@[simp] theorem State.accept_keyed (r : Byte) (rest : List HostEvent) (s : State) : (s.accept r rest).keyed = s.keyed := rfl
@[simp] theorem State.accept_err (r : Byte) (rest : List HostEvent) (s : State) : (s.accept r rest).err = s.err := rfl
@[simp] theorem State.accept_phase (r : Byte) (rest : List HostEvent) (s : State) : (s.accept r rest).phase = s.phase := rfl
@[simp] theorem State.accept_tc (r : Byte) (rest : List HostEvent) (s : State) : (s.accept r rest).tc = s.tc := rfl
@[simp] theorem State.accept_inputs (r : Byte) (rest : List HostEvent) (s : State) : (s.accept r rest).inputs = rest := rfl
@[simp] theorem State.accept_rnd (r : Byte) (rest : List HostEvent) (s : State) : (s.accept r rest).rnd = some r := rfl
@[simp] theorem State.accept_rsp (r : Byte) (rest : List HostEvent) (s : State) : (s.accept r rest).rsp = s.rsp := rfl
@[simp] theorem State.accept_freeIx (r : Byte) (rest : List HostEvent) (s : State) : (s.accept r rest).freeIx = s.freeIx := rfl

/-! `State.afterReset` -/

@[simp] theorem State.afterReset_pmem (rest : List HostEvent) (s : State) : (s.afterReset rest).pmem = [] := rfl
@[simp] theorem State.afterReset_t (rest : List HostEvent) (s : State) : (s.afterReset rest).t = [] := rfl
@[simp] theorem State.afterReset_i (rest : List HostEvent) (s : State) : (s.afterReset rest).i = 0#8 := rfl
@[simp] theorem State.afterReset_j (rest : List HostEvent) (s : State) : (s.afterReset rest).j = 0#8 := rfl
@[simp] theorem State.afterReset_key (rest : List HostEvent) (s : State) : (s.afterReset rest).key = 0#8 := rfl
@[simp] theorem State.afterReset_keyed (rest : List HostEvent) (s : State) : (s.afterReset rest).keyed = false := rfl
@[simp] theorem State.afterReset_err (rest : List HostEvent) (s : State) : (s.afterReset rest).err = .ok := rfl
@[simp] theorem State.afterReset_phase (rest : List HostEvent) (s : State) : (s.afterReset rest).phase = .idle := rfl
@[simp] theorem State.afterReset_tc (rest : List HostEvent) (s : State) : (s.afterReset rest).tc = Config.unspecifiedTc s.freeIx := rfl
@[simp] theorem State.afterReset_inputs (rest : List HostEvent) (s : State) : (s.afterReset rest).inputs = rest := rfl
@[simp] theorem State.afterReset_rnd (rest : List HostEvent) (s : State) : (s.afterReset rest).rnd = none := rfl
@[simp] theorem State.afterReset_rsp (rest : List HostEvent) (s : State) : (s.afterReset rest).rsp = none := rfl
@[simp] theorem State.afterReset_freeIx (rest : List HostEvent) (s : State) : (s.afterReset rest).freeIx = s.freeIx + 1 := rfl

/-! `State.withoutPorts` -/

@[simp] theorem State.withoutPorts_pmem (s : State) : (s.withoutPorts).pmem = s.pmem := rfl
@[simp] theorem State.withoutPorts_t (s : State) : (s.withoutPorts).t = s.t := rfl
@[simp] theorem State.withoutPorts_i (s : State) : (s.withoutPorts).i = s.i := rfl
@[simp] theorem State.withoutPorts_j (s : State) : (s.withoutPorts).j = s.j := rfl
@[simp] theorem State.withoutPorts_key (s : State) : (s.withoutPorts).key = s.key := rfl
@[simp] theorem State.withoutPorts_keyed (s : State) : (s.withoutPorts).keyed = s.keyed := rfl
@[simp] theorem State.withoutPorts_err (s : State) : (s.withoutPorts).err = s.err := rfl
@[simp] theorem State.withoutPorts_phase (s : State) : (s.withoutPorts).phase = s.phase := rfl
@[simp] theorem State.withoutPorts_tc (s : State) : (s.withoutPorts).tc = s.tc := rfl
@[simp] theorem State.withoutPorts_inputs (s : State) : (s.withoutPorts).inputs = s.inputs := rfl
@[simp] theorem State.withoutPorts_rnd (s : State) : (s.withoutPorts).rnd = none := rfl
@[simp] theorem State.withoutPorts_rsp (s : State) : (s.withoutPorts).rsp = none := rfl
@[simp] theorem State.withoutPorts_freeIx (s : State) : (s.withoutPorts).freeIx = s.freeIx := rfl

end Sys2Proof.Machine
end

