-- ==== Sys2Proof/Laws/Memory.lean ====
section
/-! SUPPORT. The two laws of byte memory and the canonical form: what a location holds after a write, what the swap
reads and leaves, and that every memory operation keeps the form. -/

namespace Sys2Proof.Machine

theorem Memory.find_put (m : Memory) (a b : Nat) (v : Byte) :
    Memory.find (Memory.put m a v) b = if b = a then some v else Memory.find m b := by
  induction m with
  | nil => by_cases h : b = a <;> simp [Memory.put, Memory.find, h]
  | cons c m ih =>
    obtain ⟨e, u⟩ := c
    by_cases hlt : a < e
    · by_cases h : b = a <;> simp [Memory.put, Memory.find, hlt, h]
    · by_cases heq : a = e
      · subst heq
        by_cases h : b = a <;> simp [Memory.put, Memory.find, h]
      · by_cases hbe : b = e
        · have : b ≠ a := fun h => heq (h ▸ hbe)
          simp [Memory.put, Memory.find, hlt, heq, hbe, Ne.symm heq]
        · simp [Memory.put, Memory.find, hlt, heq, hbe, ih]

/-- A location after a write: the written value at its own address, the earlier contents elsewhere. -/
@[simp] theorem Memory.stored_write (m : Memory) (a b v : Byte) :
    Memory.stored (Memory.write m a v) b = if b = a then some v else Memory.stored m b := by
  simp only [Memory.stored, Memory.write, Memory.find_put, BitVec.toNat_inj]

@[simp] theorem Memory.stored_nil (a : Byte) : Memory.stored [] a = none := rfl

theorem Memory.read_of_stored {m : Memory} {a v : Byte} (u : Byte → Byte) (h : Memory.stored m a = some v) :
    Memory.read m u a = v := by
  simp [Memory.read, h]

/-- A location that holds a value holds what a read returns. -/
theorem Memory.stored_eq_read {m : Memory} {a : Byte} (u : Byte → Byte) (h : (Memory.stored m a).isSome) :
    Memory.stored m a = some (Memory.read m u a) := by
  obtain ⟨v, hv⟩ := Option.isSome_iff_exists.mp h
  simp [Memory.read, hv]

theorem Memory.read_write (m : Memory) (u : Byte → Byte) (a b v : Byte) :
    Memory.read (Memory.write m a v) u b = if b = a then v else Memory.read m u b := by
  by_cases h : b = a <;> simp [Memory.read, h]

/-- A port that reads gives the byte of its location. -/
theorem Memory.rdata_of_read (m : Memory) (u : Byte → Byte) {p : PortSignals} (h : p.we = false) :
    Memory.rdata m u p = Memory.read m u p.addr := by
  simp [Memory.rdata, h]

/-- Two reads: the contents stay, and each port gives its byte. -/
theorem Memory.cycle_reads (m : Memory) (u : Byte → Byte) (a b : Byte) :
    Memory.cycle m u (readPort a) (readPort b) = ⟨m, Memory.read m u a, Memory.read m u b⟩ := rfl

/-- One write on port A, port B idle. -/
theorem Memory.cycle_writeA (m : Memory) (u : Byte → Byte) (a v : Byte) :
    (Memory.cycle m u (writePort a v) idlePort).mem = Memory.write m a v := rfl

/-- Two writes that do not clash: the write of port A, then the write of port B (R35). -/
theorem Memory.cycle_writes (m : Memory) (u : Byte → Byte) {a b v w : Byte} (h : a = b → v = w) :
    (Memory.cycle m u (writePort a v) (writePort b w)).mem = Memory.write (Memory.write m a v) b w := by
  have hc : portsClash (writePort a v) (writePort b w) = false := by
    by_cases hab : a = b <;> simp [portsClash, writePort, hab]
    exact h hab
  rw [Memory.cycle, if_neg (by rw [hc]; decide)]
  rfl

/-- The swap as its reads and writes: both reads come before both writes (R46). -/
theorem Memory.swap_eq (m : Memory) (u : Byte → Byte) (a b : Byte) :
    Memory.swap m u a b = Memory.write (Memory.write m a (Memory.read m u b)) b (Memory.read m u a) := by
  simp only [Memory.swap, Memory.cycle_reads]
  exact Memory.cycle_writes m u (fun h => by rw [h])

/-- What a location holds after a swap (R46). -/
theorem Memory.stored_swap (m : Memory) (u : Byte → Byte) (a b c : Byte) :
    Memory.stored (Memory.swap m u a b) c =
      if c = b then some (Memory.read m u a) else if c = a then some (Memory.read m u b)
      else Memory.stored m c := by
  simp [Memory.swap_eq]

/-- A swap never takes a value away from a location. -/
theorem Memory.stored_swap_isSome {m : Memory} {c : Byte} (u : Byte → Byte) (a b : Byte)
    (h : (Memory.stored m c).isSome) : (Memory.stored (Memory.swap m u a b) c).isSome := by
  rw [Memory.stored_swap]
  split
  · rfl
  · split
    · rfl
    · exact h

theorem Memory.risesFrom_put {lo a : Nat} {m : Memory} (v : Byte) (hlo : lo ≤ a)
    (h : Memory.risesFrom lo m = true) : Memory.risesFrom lo (Memory.put m a v) = true := by
  induction m generalizing lo with
  | nil => simpa [Memory.put, Memory.risesFrom] using hlo
  | cons c m ih =>
    obtain ⟨e, u⟩ := c
    simp only [Memory.risesFrom, Bool.and_eq_true, decide_eq_true_eq] at h
    unfold Memory.put
    split
    · simp only [Memory.risesFrom, Bool.and_eq_true, decide_eq_true_eq]
      exact ⟨hlo, by omega, h.2⟩
    · split
      · subst_vars
        simpa [Memory.risesFrom] using h
      · simp only [Memory.risesFrom, Bool.and_eq_true, decide_eq_true_eq]
        exact ⟨h.1, ih (by omega) h.2⟩

theorem Memory.addresses_put {a : Nat} {m : Memory} (v : Byte) (ha : a < 256)
    (h : ∀ c ∈ m, c.1 < 256) : ∀ c ∈ Memory.put m a v, c.1 < 256 := by
  induction m with
  | nil => simpa [Memory.put] using ha
  | cons c m ih =>
    obtain ⟨e, u⟩ := c
    have hm : ∀ c ∈ m, c.1 < 256 := fun c hc => h c (List.mem_cons_of_mem _ hc)
    have he : e < 256 := h (e, u) List.mem_cons_self
    unfold Memory.put
    split
    · intro c hc
      rcases List.mem_cons.mp hc with rfl | hc
      · exact ha
      · exact h c hc
    · split
      · intro c hc
        rcases List.mem_cons.mp hc with rfl | hc
        · exact ha
        · exact hm c hc
      · intro c hc
        rcases List.mem_cons.mp hc with rfl | hc
        · exact he
        · exact ih hm c hc

@[simp] theorem Memory.wf_nil : Memory.wf [] = true := rfl

/-- A write keeps the canonical form. -/
theorem Memory.wf_write {m : Memory} (a v : Byte) (h : Memory.wf m = true) :
    Memory.wf (Memory.write m a v) = true := by
  simp only [Memory.wf, Bool.and_eq_true, List.all_eq_true, decide_eq_true_eq] at h ⊢
  exact ⟨Memory.risesFrom_put v (Nat.zero_le _) h.1, Memory.addresses_put v a.isLt h.2⟩

/-- A micro-operation of the ports keeps the canonical form, whatever the two ports do. -/
theorem Memory.wf_cycle {m : Memory} (u : Byte → Byte) (a b : PortSignals) (h : Memory.wf m = true) :
    Memory.wf (Memory.cycle m u a b).mem = true := by
  have drive : ∀ {m : Memory} (p : PortSignals), Memory.wf m = true → Memory.wf (Memory.drive m p) = true := by
    intro m p h
    unfold Memory.drive
    split
    · exact Memory.wf_write _ _ h
    · exact h
  simp only [Memory.cycle]
  split
  · exact Memory.wf_write _ _ h
  · exact drive b (drive a h)

/-- A swap keeps the canonical form. -/
theorem Memory.wf_swap {m : Memory} (u : Byte → Byte) (a b : Byte) (h : Memory.wf m = true) :
    Memory.wf (Memory.swap m u a b) = true := by
  rw [Memory.swap_eq]
  exact Memory.wf_write _ _ (Memory.wf_write _ _ h)

theorem identityWrites_wf {m : Memory} (h : Memory.wf m = true) : Memory.wf (identityWrites m) = true := by
  unfold identityWrites
  generalize List.range 256 = l
  induction l generalizing m with
  | nil => exact h
  | cons a l ih => exact ih (Memory.wf_write _ _ h)

theorem mixLoop_wf {m : Memory} (u : Byte → Byte) (key : Byte) (h : Memory.wf m = true) :
    Memory.wf (mixLoop u key m).1 = true := by
  unfold mixLoop
  generalize List.range 256 = l
  generalize (0#8) = j
  induction l generalizing m j with
  | nil => exact h
  | cons a l ih => exact ih (Memory.wf_swap _ _ _ h) _

theorem reset_memories_wf : Memory.wf State.reset.pmem = true ∧ Memory.wf State.reset.t = true :=
  ⟨rfl, rfl⟩

/-- The first `n` identity writes: the locations below `n` hold their own address. -/
theorem stored_foldl_identity (m : Memory) (n : Nat) (hn : n ≤ 256) (b : Byte) (hb : b.toNat < n) :
    Memory.stored ((List.range n).foldl (fun m a => Memory.write m (mod256 a) (mod256 a)) m) b = some b := by
  induction n with
  | zero => omega
  | succ n ih =>
    rw [List.range_succ, List.foldl_append]
    simp only [List.foldl_cons, List.foldl_nil, Memory.stored_write]
    by_cases h : b = mod256 n
    · simp [h]
    · have hne : b.toNat ≠ n := fun hbn => h (by rw [mod256, ← hbn, BitVec.ofNat_toNat, BitVec.setWidth_eq])
      rw [if_neg h]
      exact ih (by omega) (by omega)

/-- After the identity writes every location holds its own address (R74). -/
theorem stored_identityWrites (m : Memory) (a : Byte) : Memory.stored (identityWrites m) a = some a := by
  unfold identityWrites
  generalize hn : 256 = n
  exact stored_foldl_identity m n (by omega) a (by have := a.isLt; omega)

/-- Below its first address a rising list holds nothing. -/
theorem Memory.find_eq_none_of_lt {lo a : Nat} {m : Memory} (h : Memory.risesFrom lo m = true) (ha : a < lo) :
    Memory.find m a = none := by
  induction m generalizing lo with
  | nil => rfl
  | cons c m ih =>
    obtain ⟨e, u⟩ := c
    simp only [Memory.risesFrom, Bool.and_eq_true, decide_eq_true_eq] at h
    rw [Memory.find, if_neg (by omega)]
    exact ih h.2 (by omega)

/-- A rising list is determined by what it holds. -/
theorem Memory.eq_of_find_eq {lo : Nat} {m₁ m₂ : Memory} (h₁ : Memory.risesFrom lo m₁ = true)
    (h₂ : Memory.risesFrom lo m₂ = true) (h : ∀ a, Memory.find m₁ a = Memory.find m₂ a) : m₁ = m₂ := by
  induction m₁ generalizing lo m₂ with
  | nil =>
    cases m₂ with
    | nil => rfl
    | cons c m => simpa [Memory.find] using h c.1
  | cons c m ih =>
    obtain ⟨e, u⟩ := c
    cases m₂ with
    | nil => simpa [Memory.find] using h e
    | cons c' m' =>
      obtain ⟨e', u'⟩ := c'
      simp only [Memory.risesFrom, Bool.and_eq_true, decide_eq_true_eq] at h₁ h₂
      have he : e = e' := by
        by_contra hne
        rcases Nat.lt_or_gt_of_ne hne with hl | hl
        · have := h e
          simp [Memory.find, hne, Memory.find_eq_none_of_lt h₂.2 (show e < e' + 1 by omega)] at this
        · have := h e'
          simp [Memory.find, Ne.symm hne, Memory.find_eq_none_of_lt h₁.2 (show e' < e + 1 by omega)] at this
      subst he
      obtain rfl : u = u' := by simpa [Memory.find] using h e
      congr 1
      refine ih h₁.2 h₂.2 (fun a => ?_)
      rcases Nat.lt_or_ge a (e + 1) with hl | hl
      · rw [Memory.find_eq_none_of_lt h₁.2 hl, Memory.find_eq_none_of_lt h₂.2 hl]
      · simpa [Memory.find, show a ≠ e by omega] using h a

theorem Memory.find_eq_none_of_le {m : Memory} (h : ∀ c ∈ m, c.1 < 256) {a : Nat} (ha : 256 ≤ a) :
    Memory.find m a = none := by
  induction m with
  | nil => rfl
  | cons c m ih =>
    have hc := h c List.mem_cons_self
    rw [Memory.find, if_neg (by omega)]
    exact ih (fun d hd => h d (List.mem_cons_of_mem _ hd))

/-- Canonical memories with the same contents are the same list. -/
theorem Memory.eq_of_stored_eq {m₁ m₂ : Memory} (h₁ : Memory.wf m₁ = true) (h₂ : Memory.wf m₂ = true)
    (h : ∀ a, Memory.stored m₁ a = Memory.stored m₂ a) : m₁ = m₂ := by
  simp only [Memory.wf, Bool.and_eq_true, List.all_eq_true, decide_eq_true_eq] at h₁ h₂
  refine Memory.eq_of_find_eq h₁.1 h₂.1 (fun a => ?_)
  rcases Nat.lt_or_ge a 256 with hl | hl
  · simpa [Memory.stored, Nat.mod_eq_of_lt hl] using h (BitVec.ofNat 8 a)
  · rw [Memory.find_eq_none_of_le h₁.2 hl, Memory.find_eq_none_of_le h₂.2 hl]

end Sys2Proof.Machine
end

