-- ==== Sys2Proof/Laws/Ops.lean ====
section
/-! SUPPORT. One lemma per shared operation that says what it can do, for later proofs to cite: the reduction modulo
256, the response word, STATUS, an error, the swap and the identity writes as reads, and the two loops' step. -/

namespace Sys2Proof.Machine

/-- Reduction modulo 256 does nothing to a byte. -/
@[simp] theorem mod256_toNat (a : Byte) : mod256 a.toNat = a := by simp [mod256]

@[simp] theorem toNat_mod256 (n : Nat) : (mod256 n).toNat = n % 256 := by simp [mod256]

/-- Reduction modulo 256 commutes with addition (R80). -/
theorem mod256_add (m n : Nat) : mod256 (m + n) = mod256 m + mod256 n := by
  simp [mod256, BitVec.ofNat_add]

/-- CODE and DATA of a response word determine each other (R58). -/
@[simp] theorem responseWord_inj {c c' : ResultCode} {d d' : Byte} :
    responseWord c d = responseWord c' d' ↔ c = c' ∧ d = d' := by
  refine ⟨fun h => ?_, by rintro ⟨rfl, rfl⟩; rfl⟩
  have hc := congrArg (fun w : Word => w.extractLsb' 8 8) h
  have hd := congrArg (fun w : Word => w.extractLsb' 0 8) h
  simp only [responseWord] at hc hd
  rw [BitVec.extractLsb'_append_eq_of_le (by decide), BitVec.extractLsb'_append_eq_of_le (by decide)] at hc
  rw [BitVec.extractLsb'_append_eq_of_add_le (by decide), BitVec.extractLsb'_append_eq_of_add_le (by decide)] at hd
  simp only [Nat.sub_self, BitVec.extractLsb'_eq_self] at hc hd
  refine ⟨?_, hd⟩
  revert hc
  cases c <;> cases c' <;> decide

theorem responseWord_zero :
    responseWord .ok 0#8 = 0x0000#16 ∧ responseWord .invalidArgument 0#8 = 0x0100#16 ∧
      responseWord .notKeyed 0#8 = 0x0200#16 ∧ responseWord .illegalCommand 0#8 = 0x0300#16 := by decide

/-- The fields of STATUS: reserved bits are 0, bit 0 is KEYED, the high nibble is ERR (R17). -/
theorem statusByte_toNat (s : State) :
    (statusByte s).toNat = 16 * (codeNumber s.err).toNat + s.keyed.toNat := by
  unfold statusByte keyedBit
  cases s.err <;> cases s.keyed <;> decide

/-- An error other than INVALID_ARGUMENT writes ERR and the response only (R157). -/
theorem raise_notKeyed (s : State) :
    raise .notKeyed s = { s with err := .notKeyed, rsp := some 0x0200#16, rnd := none } := rfl

theorem raise_illegalCommand (s : State) :
    raise .illegalCommand s = { s with err := .illegalCommand, rsp := some 0x0300#16, rnd := none } := rfl

/-- INVALID_ARGUMENT ends the session too (R81, R157). -/
theorem raise_invalidArgument (s : State) :
    raise .invalidArgument s = { endSession s with err := .invalidArgument, rsp := some 0x0100#16, rnd := none } := rfl

/-- A read after a swap (R46). -/
theorem Memory.read_swap (m : Memory) (u : Byte → Byte) (a b c : Byte) :
    Memory.read (Memory.swap m u a b) u c =
      if c = b then Memory.read m u a else if c = a then Memory.read m u b else Memory.read m u c := by
  simp only [Memory.read, Memory.stored_swap]
  split
  · rfl
  · split <;> rfl

/-- One mixing iteration never takes a value away from a location. -/
theorem mixIteration_isSome {u : Byte → Byte} {key : Byte} {p : Memory × Byte} {c : Byte} (i : Nat)
    (h : (Memory.stored p.1 c).isSome) : (Memory.stored (mixIteration u key p i).1 c).isSome :=
  Memory.stored_swap_isSome _ _ _ h

/-- The first `n` iterations followed by one more. -/
theorem mixIterations_succ (u : Byte → Byte) (key : Byte) (p : Memory × Byte) (n : Nat) :
    (List.range (n + 1)).foldl (mixIteration u key) p =
      mixIteration u key ((List.range n).foldl (mixIteration u key) p) n := by
  simp [List.range_succ]

/-- What a key schedule can do (R73): the error of R81, or the three phases. -/
theorem keySchedule_cases (k : Nat) (s : State) :
    ((k = 0 ∨ 256 ≤ k) ∧ keySchedule k s = raise .invalidArgument s) ∨
    ((1 ≤ k ∧ k ≤ 255) ∧ keySchedule k s = completeSchedule (mixPhase (initPhase k s))) := by
  unfold keySchedule
  split
  · exact .inl ⟨‹_›, rfl⟩
  · exact .inr ⟨by omega, rfl⟩

theorem keySchedule_valid {k : Nat} (h₁ : 1 ≤ k) (h₂ : k ≤ 255) (s : State) :
    keySchedule k s = completeSchedule (mixPhase (initPhase k s)) := by
  rcases keySchedule_cases k s with ⟨h, -⟩ | ⟨-, h⟩
  · omega
  · exact h

theorem keySchedule_invalid {k : Nat} (h : k = 0 ∨ 256 ≤ k) (s : State) :
    keySchedule k s = raise .invalidArgument s := by
  rcases keySchedule_cases k s with ⟨-, h'⟩ | ⟨h', -⟩
  · exact h'
  · omega

/-- A raised error ends the command: its `rnd` byte is gone (R23). -/
@[simp] theorem raise_rnd (e : ErrorKind) (s : State) : (raise e s).rnd = none := by cases e <;> rfl

/-- Every key schedule ends with a response, so its `rnd` byte is gone. -/
@[simp] theorem keySchedule_rnd (k : Nat) (s : State) : (keySchedule k s).rnd = none := by
  rcases keySchedule_cases k s with ⟨-, h⟩ | ⟨-, h⟩ <;> rw [h]
  · rfl
  · rfl

end Sys2Proof.Machine
end

