-- ==== Sys2Proof/Laws/Step.lean ====
section
/-! SUPPORT. What `exec` and `step` can answer, said once: every command answers a next state, and a step is one of
three things: a command runs, a word that is no command is answered, or no command is accepted. -/

namespace Sys2Proof.Machine

theorem exec_nop (s : State) : exec .nop s = .next (respond .ok 0#8 s) := rfl

theorem exec_ksa (k : BitVec 12) (s : State) : exec (.ksa k) s = .next (keySchedule k.toNat s) := rfl

theorem exec_ksar (s : State) : exec .ksar s = .next (keySchedule (drawnByte s).toNat s) := rfl

theorem exec_crypt (d : Byte) (s : State) :
    exec (.crypt d) s = .next (if s.keyed then prgaStep d s else raise .notKeyed s) := rfl

theorem exec_peek (a : Byte) (s : State) :
    exec (.peek a) s = .next (if s.keyed then endAccess (readS s a) s else raise .notKeyed s) := rfl

theorem exec_crypt_keyed {s : State} (h : s.keyed = true) (d : Byte) : exec (.crypt d) s = .next (prgaStep d s) := by
  rw [exec_crypt, if_pos h]

theorem exec_crypt_notKeyed {s : State} (h : s.keyed = false) (d : Byte) :
    exec (.crypt d) s = .next (raise .notKeyed s) := by
  rw [exec_crypt, if_neg (by rw [h]; decide)]

theorem exec_peek_keyed {s : State} (h : s.keyed = true) (a : Byte) :
    exec (.peek a) s = .next (endAccess (readS s a) s) := by
  rw [exec_peek, if_pos h]

theorem exec_peek_notKeyed {s : State} (h : s.keyed = false) (a : Byte) :
    exec (.peek a) s = .next (raise .notKeyed s) := by
  rw [exec_peek, if_neg (by rw [h]; decide)]

theorem exec_rdreg (r : CtrlReg) (s : State) : exec (.rdreg r) s = .next (endAccess (readCtrl r s) s) := rfl

theorem exec_clr (s : State) :
    exec .clr s = .next (respond .ok 0#8 { endSession s with err := .ok }) := rfl

/-- The state a command leads to, for statements that need it without its outcome. -/
theorem exec_next (i : Instr) (s : State) : ∃ t, exec i s = .next t := by
  cases i <;> exact ⟨_, rfl⟩

@[simp] theorem next_inj {s t : State} :
    (Host.Outcome.next s : Host.Outcome State Fault Refusal) = .next t ↔ s = t :=
  ⟨fun h => by cases h; rfl, fun h => by rw [h]⟩

/-- After every command the sampled `rnd` byte is gone (R23). -/
theorem exec_rnd {i : Instr} {s t : State} (h : exec i s = .next t) : t.rnd = none := by
  cases i with
  | nop => cases h; rfl
  | ksa k => cases h; exact keySchedule_rnd _ _
  | ksar => cases h; exact keySchedule_rnd _ _
  | crypt d => rw [exec_crypt, next_inj] at h; subst h; split <;> rfl
  | peek a => rw [exec_peek, next_inj] at h; subst h; split <;> rfl
  | rdreg r => cases h; rfl
  | clr => cases h; rfl

/-- A command presented to an idle block is accepted. -/
theorem fetch_present {s : State} (h : s.phase = .idle) (w : Word) (r : Byte) :
    (s.present w r).fetch = some (w, { s with rnd := some r }) := by
  simp [State.fetch, State.present, State.accept, h]

/-- A legal word given to an idle block runs its command. -/
theorem step_present_ok {s : State} {w : Word} {i : Instr} (h : s.phase = .idle) (r : Byte)
    (hw : decode w = .ok i) : step (s.present w r) = exec i { s with rnd := some r } := by
  simp [step, fetch_present h, hw]

/-- Any other word given to an idle block is answered by ILLEGAL_COMMAND. -/
theorem step_present_error {s : State} {w : Word} {e : Reject} (h : s.phase = .idle) (r : Byte)
    (hw : decode w = .error e) : step (s.present w r) = .next (illegalCommand { s with rnd := some r }) := by
  simp [step, fetch_present h, hw]

/-- What a step can be. -/
theorem step_cases (s : State) :
    (∃ w s' i, s.fetch = some (w, s') ∧ decode w = .ok i ∧ step s = exec i s') ∨
    (∃ w s' e, s.fetch = some (w, s') ∧ decode w = .error e ∧ step s = .next (illegalCommand s')) ∨
    (s.fetch = none ∧ step s = .next s.withoutCommand) := by
  unfold step
  rcases hf : s.fetch with _ | ⟨w, s'⟩
  · exact .inr (.inr ⟨rfl, rfl⟩)
  · rcases hd : decode w with e | i
    · exact .inr (.inl ⟨w, s', e, rfl, hd, by simp [hd]⟩)
    · exact .inl ⟨w, s', i, rfl, hd, by simp [hd]⟩

/-- What acceptance changes: only the ports. -/
theorem fetch_eq_some {s s' : State} {w : Word} (h : s.fetch = some (w, s')) :
    s.phase = .idle ∧ ∃ r rest, s.inputs = .command w r :: rest ∧ s' = { s with inputs := rest, rnd := some r } := by
  unfold State.fetch at h
  split at h
  · split at h
    · cases h
      exact ⟨‹_›, _, _, ‹_›, rfl⟩
    · cases h
  · cases h

/-- What a step that accepts no command does. -/
theorem withoutCommand_cases (s : State) :
    (∃ rest, s.withoutCommand = { s with inputs := rest, rsp := none }) ∨
    (∃ rest, s.inputs = .reset :: rest ∧ s.withoutCommand = s.afterReset rest) := by
  unfold State.withoutCommand
  split
  · exact .inl ⟨s.inputs, rfl⟩
  · exact .inl ⟨_, rfl⟩
  · exact .inl ⟨s.inputs, rfl⟩
  · exact .inr ⟨_, ‹_›, rfl⟩

end Sys2Proof.Machine
end

