-- ==== Sys2Proof/Laws/Calls.lean ====
section
/-! SUPPORT. A run of commands, one command at a time. -/

namespace Sys2Proof.Machine

/-- A command whose step answers, with its response. -/
theorem transact_of_step {w a : Word} {r : Byte} {s t : State} (h : step (s.present w r) = .next t)
    (ha : t.rsp = some a) : transact w r s = some (t, a) := by
  simp [transact, h, ha]

@[simp] theorem runCommands_nil (s : State) : runCommands [] s = some (s, []) := rfl

/-- The first command of a run, then the rest from the state it leaves. -/
theorem runCommands_cons {w a : Word} {r : Byte} {s t : State} (h : transact w r s = some (t, a))
    (rest : List (Word × Byte)) :
    runCommands ((w, r) :: rest) s = (runCommands rest t).map (fun p => (p.1, a :: p.2)) := by
  simp only [runCommands, h]

@[simp] theorem streamWords_nil (r : Byte) : streamWords r [] = [] := rfl

@[simp] theorem streamWords_cons (r d : Byte) (ds : List Byte) :
    streamWords r (d :: ds) = (encode (.crypt d), r) :: streamWords r ds := rfl

end Sys2Proof.Machine
end

