-- ==== Sys2Proof/Laws/Decode.lean ====
section
/-! SUPPORT. The fields of a word put together again, the decoder's cases said once, and what each mask of the
opcode map sees (30_encoding.md R51 to R55). -/

namespace Sys2Proof

/-- A word is its opcode followed by its low twelve bits. -/
theorem opField_append_low12 (w : Word) : opField w ++ low12 w = w := by
  apply BitVec.eq_of_toNat_eq
  simp only [opField, low12, BitVec.toNat_append, BitVec.extractLsb'_toNat]
  rw [← Nat.shiftLeft_add_eq_or_of_lt (by omega)]
  simp only [Nat.shiftLeft_eq, Nat.shiftRight_eq_div_pow]
  have := w.isLt
  omega

/-- The low twelve bits are ZERO4 followed by ARG. -/
theorem zero4_append_argField (w : Word) : zero4 w ++ argField w = low12 w := by
  apply BitVec.eq_of_toNat_eq
  simp only [zero4, argField, low12, BitVec.toNat_append, BitVec.extractLsb'_toNat]
  rw [← Nat.shiftLeft_add_eq_or_of_lt (by omega)]
  simp only [Nat.shiftLeft_eq, Nat.shiftRight_eq_div_pow]
  have := w.isLt
  omega

/-- A word of format B is its opcode and its ARG. -/
theorem wordB_fields (w : Word) (h : zero4 w = 0#4) : wordB (opField w) (argField w) = w := by
  have hw := opField_append_low12 w
  rw [← zero4_append_argField, h] at hw
  have ha : ∀ (o : BitVec 4) (a : Byte), o ++ ((0#4 ++ a : BitVec 12)) = ((o ++ 0#4 : BitVec 8) ++ a : Word) := by
    decide +kernel
  rw [wordB, ← ha]
  exact hw

/-- Every byte is a register's number or no register's. -/
theorem ctrlRegOf_cases (n : Byte) :
    (∃ r, ctrlRegOf n = some r ∧ n = ctrlRegNumber r) ∨ (ctrlRegOf n = none ∧ 4 ≤ n.toNat) := by
  revert n
  decide +kernel

/-- The decoder, case by case: one case per command, and the words that carry none. -/
theorem decode_cases (w : Word) :
    (opField w = 0x0#4 ∧ low12 w = 0#12 ∧ decode w = .ok .nop) ∨
    (opField w = 0x1#4 ∧ decode w = .ok (.ksa (low12 w))) ∨
    (opField w = 0x2#4 ∧ low12 w = 0#12 ∧ decode w = .ok .ksar) ∨
    (opField w = 0x3#4 ∧ zero4 w = 0#4 ∧ decode w = .ok (.crypt (argField w))) ∨
    (opField w = 0x4#4 ∧ zero4 w = 0#4 ∧ decode w = .ok (.peek (argField w))) ∨
    (opField w = 0x5#4 ∧ zero4 w = 0#4 ∧ ∃ r, argField w = ctrlRegNumber r ∧ decode w = .ok (.rdreg r)) ∨
    (opField w = 0xF#4 ∧ low12 w = 0#12 ∧ decode w = .ok .clr) ∨
    ((opField w = 0x0#4 ∨ opField w = 0x2#4 ∨ opField w = 0xF#4) ∧ low12 w ≠ 0#12 ∧
      decode w = .error (.mustBeZero (opField w))) ∨
    ((opField w = 0x3#4 ∨ opField w = 0x4#4 ∨ opField w = 0x5#4) ∧ zero4 w ≠ 0#4 ∧
      decode w = .error (.mustBeZero (opField w))) ∨
    (opField w = 0x5#4 ∧ zero4 w = 0#4 ∧ 4 ≤ (argField w).toNat ∧
      decode w = .error (.noSuchRegister (argField w))) ∨
    ((0x6 ≤ (opField w).toNat ∧ (opField w).toNat ≤ 0xE) ∧ decode w = .error (.reservedOpcode (opField w))) := by
  have hop : ∀ o : BitVec 4, o = 0x0#4 ∨ o = 0x1#4 ∨ o = 0x2#4 ∨ o = 0x3#4 ∨ o = 0x4#4 ∨ o = 0x5#4 ∨ o = 0xF#4 ∨
      ((0x6 ≤ o.toNat ∧ o.toNat ≤ 0xE) ∧ o ≠ 0x0#4 ∧ o ≠ 0x1#4 ∧ o ≠ 0x2#4 ∧ o ≠ 0x3#4 ∧ o ≠ 0x4#4 ∧ o ≠ 0x5#4 ∧
        o ≠ 0xF#4) := by decide
  rcases hop (opField w) with h | h | h | h | h | h | h | ⟨hr, h0, h1, h2, h3, h4, h5, hF⟩
  case inr.inr.inr.inr.inr.inr.inr => simp [decode, h0, h1, h2, h3, h4, h5, hF, hr]
  case inr.inr.inr.inr.inr.inl =>
    by_cases hz : zero4 w = 0#4
    · rcases ctrlRegOf_cases (argField w) with ⟨r, hr, hn⟩ | ⟨hr, hn⟩
      · have hd : decode w = .ok (.rdreg r) := by simp [decode, h, decodeB, decodeRdreg, hz, hr]
        exact .inr (.inr (.inr (.inr (.inr (.inl ⟨h, hz, r, hn, hd⟩)))))
      · simp [decode, h, decodeB, decodeRdreg, hz, hr, hn]
    · simp [decode, h, decodeB, hz]
  all_goals
    by_cases hl : low12 w = 0#12 <;> by_cases hz : zero4 w = 0#4 <;> simp [decode, h, decodeZ, decodeB, hl, hz]

/-- Two words put together from fields of the same widths are equal exactly when the fields are. -/
theorem append_inj {m n : Nat} {x x' : BitVec m} {y y' : BitVec n} :
    x ++ y = x' ++ y' ↔ x = x' ∧ y = y' := by
  refine ⟨fun h => ?_, by rintro ⟨rfl, rfl⟩; rfl⟩
  have hx := congrArg (fun w : BitVec (m + n) => w.extractLsb' n m) h
  have hy := congrArg (fun w : BitVec (m + n) => w.extractLsb' 0 n) h
  beta_reduce at hx hy
  rw [BitVec.extractLsb'_append_eq_of_le (Nat.le_refl n), BitVec.extractLsb'_append_eq_of_le (Nat.le_refl n)] at hx
  rw [BitVec.extractLsb'_append_eq_of_add_le (by omega), BitVec.extractLsb'_append_eq_of_add_le (by omega)] at hy
  simp only [Nat.sub_self, BitVec.extractLsb'_eq_self] at hx hy
  exact ⟨hx, hy⟩

/-- A mask put together from fields masks field by field. -/
theorem append_and_append {m n : Nat} (x u : BitVec m) (y v : BitVec n) :
    (x ++ y) &&& (u ++ v) = (x &&& u) ++ (y &&& v) := by simp

/-- The mask of format K sees the opcode only. -/
theorem selects_maskK (w : Word) (o : BitVec 4) (name : String) :
    (OpcodeRow.mk name (o ++ 0#12) 0xF000#16).selects w = true ↔ opField w = o := by
  have hw : w &&& 0xF000#16 = opField w ++ 0#12 := by
    conv_lhs => rw [← opField_append_low12 w]
    refine (append_and_append (opField w) 0xF#4 (low12 w) 0#12).trans ?_
    rw [show opField w &&& 0xF#4 = opField w from BitVec.and_allOnes, BitVec.and_zero]
  rw [OpcodeRow.selects, hw, beq_iff_eq]
  exact append_inj.trans (and_iff_left rfl)

/-- The mask of format Z sees the whole word. -/
theorem selects_maskZ (w : Word) (o : BitVec 4) (name : String) :
    (OpcodeRow.mk name (o ++ 0#12) 0xFFFF#16).selects w = true ↔ opField w = o ∧ low12 w = 0#12 := by
  have hw : w &&& 0xFFFF#16 = opField w ++ low12 w := by
    rw [opField_append_low12]
    exact BitVec.and_allOnes
  rw [OpcodeRow.selects, hw, beq_iff_eq]
  exact append_inj

/-- The masks of format B see the opcode, ZERO4 and, for RDREG, the upper bits of ARG. -/
theorem and_maskB (w : Word) (v : Byte) :
    w &&& (0xF#4 ++ (0xF#4 ++ v)) = opField w ++ (zero4 w ++ (argField w &&& v)) := by
  have ho : ∀ x : BitVec 4, x &&& 0xF#4 = x := fun x => BitVec.and_allOnes
  conv_lhs => rw [← opField_append_low12 w, ← zero4_append_argField w]
  rw [append_and_append, append_and_append, ho, ho]

/-- The mask of CRYPT and PEEK. -/
theorem selects_maskB (w : Word) (o : BitVec 4) (name : String) :
    (OpcodeRow.mk name (o ++ 0#12) 0xFF00#16).selects w = true ↔ opField w = o ∧ zero4 w = 0#4 := by
  have hw : w &&& 0xFF00#16 = opField w ++ (zero4 w ++ 0#8) :=
    (and_maskB w 0#8).trans (by rw [BitVec.and_zero])
  rw [OpcodeRow.selects, hw, beq_iff_eq]
  exact append_inj.trans (and_congr_right' ((append_inj (y := 0#8) (x' := 0#4) (y' := 0#8)).trans (and_iff_left rfl)))

/-- The mask of RDREG. -/
theorem selects_maskRegister (w : Word) (o : BitVec 4) (name : String) :
    (OpcodeRow.mk name (o ++ 0#12) 0xFFFC#16).selects w = true ↔
      opField w = o ∧ zero4 w = 0#4 ∧ (argField w).toNat < 4 := by
  have hw : w &&& 0xFFFC#16 = opField w ++ (zero4 w ++ (argField w &&& 0xFC#8)) := and_maskB w 0xFC#8
  have ha : ∀ a : Byte, a &&& 0xFC#8 = 0#8 ↔ a.toNat < 4 := by decide +kernel
  rw [OpcodeRow.selects, hw, beq_iff_eq]
  exact append_inj.trans (and_congr_right' ((append_inj (x' := 0#4) (y' := 0#8)).trans (and_congr_right' (ha _))))

end Sys2Proof
end

