-- ==== Sys2Proof/Laws/PerInstr.lean ====
section
/-! SUPPORT. A family of per-instruction lemmas: the word of every command is legal, and it selects the row of the
opcode map that carries the command's mnemonic (30_encoding.md R52). -/

/-- The command's word is matched by the row of its mnemonic, and by no row before it. -/
def Sys2Proof.Laws.SelectsItsRow.Statement (i : Sys2Proof.Instr) : Prop :=
  (Sys2Proof.selectedRow (Sys2Proof.encode i)).map Sys2Proof.OpcodeRow.mnemonic = some i.mnemonic

namespace Sys2Proof.Laws

theorem SelectsItsRow.nop : SelectsItsRow.Statement .nop := by
  unfold SelectsItsRow.Statement
  decide

theorem SelectsItsRow.ksa (k : BitVec 12) : SelectsItsRow.Statement (.ksa k) := by
  revert k
  unfold SelectsItsRow.Statement
  decide +kernel

theorem SelectsItsRow.ksar : SelectsItsRow.Statement .ksar := by
  unfold SelectsItsRow.Statement
  decide

theorem SelectsItsRow.crypt (d : Byte) : SelectsItsRow.Statement (.crypt d) := by
  revert d
  unfold SelectsItsRow.Statement
  decide +kernel

theorem SelectsItsRow.peek (a : Byte) : SelectsItsRow.Statement (.peek a) := by
  revert a
  unfold SelectsItsRow.Statement
  decide +kernel

theorem SelectsItsRow.rdreg (r : CtrlReg) : SelectsItsRow.Statement (.rdreg r) := by
  unfold SelectsItsRow.Statement
  cases r <;> decide

theorem SelectsItsRow.clr : SelectsItsRow.Statement .clr := by
  unfold SelectsItsRow.Statement
  decide

end Sys2Proof.Laws
end

