-- ==== Sys2Proof/Laws/Sequencer.lean ====
section
/-! SUPPORT. The sequencer one micro-operation at a time, and its iterations and steps as a whole: three
micro-operations of KSA_MIX are one mixing iteration, four of PRGA_STEP are one generation step. -/

namespace Sys2Proof.Machine

@[simp] theorem ticks_zero (c : Instr) (q : Sequencer) : ticks c 0 q = q := rfl

/-- Micro-operations compose. -/
theorem ticks_add (c : Instr) (m n : Nat) (q : Sequencer) : ticks c (m + n) q = ticks c n (ticks c m q) := by
  induction m generalizing q with
  | zero => simp
  | succ m ih => rw [Nat.succ_add]; exact ih (tick c q)

/-- The last micro-operation taken apart. -/
theorem ticks_succ (c : Instr) (n : Nat) (q : Sequencer) : ticks c (n + 1) q = tick c (ticks c n q) :=
  ticks_add c n 1 q

/-- An idle block does nothing. -/
theorem tick_idle {q : Sequencer} (h : q.block.phase = .idle) (c : Instr) : tick c q = q := by
  simp [tick, h]

/-- One micro-operation of KSA_INIT writes the identity at I. -/
theorem tick_ksaInit {s : State} (h : s.phase = .ksaInit) (c : Instr) (m : MicroStep) :
    tick c ⟨s, m⟩ = ⟨initTick ⟨Memory.write s.pmem s.i s.i, Config.writingPortByte s.i s.i,
      Memory.read s.pmem (Config.unwrittenByte s.freeIx) 0#8⟩ s, m⟩ := by
  simp [tick, h, portCycle, portSignals, portOwner, ksaSignals]
  rfl

/-- The three micro-operations of one mixing iteration (R82). -/
theorem ticks_ksaMix {s : State} (h : s.phase = .ksaMix) (c : Instr) :
    ticks c 3 ⟨s, .readI⟩ =
      ⟨endIteration { s with
        j := mod256 (s.j.toNat + (readS s s.i).toNat + tableOperand s)
        pmem := Memory.swap s.pmem (Config.unwrittenByte s.freeIx) s.i
          (mod256 (s.j.toNat + (readS s s.i).toNat + tableOperand s)) }, .readI⟩ := by
  simp only [ticks, tick, h, mixTick, portCycle, portSignals, portOwner, ksaSignals, stageSignals]
  rfl

/-- The two swapped bytes have the same sum before and after the swap (R94 c). -/
theorem swap_sum (m : Memory) (u : Byte → Byte) (a b : Byte) :
    (Memory.read (Memory.swap m u a b) u a).toNat + (Memory.read (Memory.swap m u a b) u b).toNat =
      (Memory.read m u a).toNat + (Memory.read m u b).toNat := by
  by_cases h : a = b
  · simp [Memory.read_swap, h]
  · simp [Memory.read_swap, h, Nat.add_comm]

/-- The four micro-operations of one CRYPT (R92). -/
theorem ticks_prgaStep {s : State} (h : s.phase = .prgaStep) (d : Byte) :
    ticks (.crypt d) 4 ⟨s, .readI⟩ = ⟨prgaStep d s, .readI⟩ := by
  have ht := swap_sum s.pmem (Config.unwrittenByte s.freeIx) (mod256 (s.i.toNat + 1))
    (mod256 (s.j.toNat + (readS s (mod256 (s.i.toNat + 1))).toNat))
  simp only [prgaStep]
  simp only [readS] at ht ⊢
  rw [ht]
  simp only [ticks, tick, h, prgaTick, portCycle, portSignals, portOwner, prgaSignals, prgaIndex, stageSignals]
  rfl

end Sys2Proof.Machine
end

