-- ==== Sys2Proof/Tests/Slice0.lean ====
section
/-! SUPPORT. The model's own tests: ill-formed words are refused, words written out from the encodings decode, single
steps give the values of spec/95_test_vectors.md, and every obligation with hypotheses has a witness that meets them.
Expected values come from the spec's tables, cited at each test. -/

open Sys2Proof Sys2Proof.Machine

namespace Sys2Proof.Tests

/-! ## Small states and readers -/

/-- The state an outcome leads to. -/
def stateOf (o : Host.Outcome State Fault Refusal) : State :=
  match o with
  | .next t => t
  | .fault f => nomatch f
  | .refused _ => State.reset

/-- The response of a step that is given this word, with this byte at the `rnd` port. -/
def responseOf (w : Word) (r : Byte) (s : State) : Option Word := (stateOf (step (s.present w r))).rsp

/-- A keyed block, key 5, cursor (0, 0), with this S. -/
def keyedWith (m : Memory) : State := { State.reset with pmem := m, key := 5#8, keyed := true }

/-- A keyed block whose S is the identity permutation. -/
def keyedIdentity : State := keyedWith (identityWrites [])

/-- A keyed block with the entries of S after KSA #5 that the first CRYPT touches (41_prga.md R91). -/
def keyedFirstStep : State := keyedWith [(1, 0x02#8), (2, 0x97#8), (0x99, 0xFE#8)]

theorem keyedIdentity_permutation : IsPermutation keyedIdentity.pmem :=
  ⟨fun a => by rw [show keyedIdentity.pmem = identityWrites [] from rfl, stored_identityWrites]; rfl,
    fun v => ⟨v, stored_identityWrites [] v, fun a ha => by
      simpa [show keyedIdentity.pmem = identityWrites [] from rfl, stored_identityWrites] using ha⟩⟩

theorem keyedIdentity_canonical : Canonical keyedIdentity := ⟨identityWrites_wf rfl, rfl⟩

theorem keyedIdentity_invariant : SessionInv keyedIdentity :=
  ⟨rfl, by decide, fun h => absurd h (by decide), fun _ => keyedIdentity_permutation⟩

theorem reset_invariant : SessionInv State.reset :=
  ⟨rfl, by decide, fun _ => ⟨rfl, rfl⟩, fun h => absurd h (by decide)⟩

/-! ## Well-formedness: each check refuses a word that fails it (95_test_vectors.md section 6) -/

theorem test_wellFormed_zero12_refused :
    legalWord 0x0001#16 = false ∧ legalWord 0x0FFF#16 = false ∧ legalWord 0x2001#16 = false ∧
      legalWord 0xF001#16 = false ∧ legalWord 0xFFFF#16 = false := by decide

theorem test_wellFormed_zero4_refused :
    legalWord 0x3100#16 = false ∧ legalWord 0x3141#16 = false ∧ legalWord 0x4100#16 = false ∧
      legalWord 0x5100#16 = false := by decide

theorem test_wellFormed_register_refused : legalWord 0x5004#16 = false ∧ legalWord 0x50FF#16 = false := by decide

theorem test_wellFormed_reserved_refused :
    legalWord 0x6000#16 = false ∧ legalWord 0x7ABC#16 = false ∧ legalWord 0xEFFF#16 = false := by decide

theorem test_wellFormed_accepted :
    legalWord 0x0000#16 = true ∧ legalWord 0x1FFF#16 = true ∧ legalWord 0x2000#16 = true ∧ legalWord 0x30FF#16 = true ∧
      legalWord 0x40FF#16 = true ∧ legalWord 0x5003#16 = true ∧ legalWord 0xF000#16 = true := by decide

/-- The decoder names the check that failed (R54, R55). -/
theorem test_decode_refuses_by_name :
    decode 0x0001#16 = .error (.mustBeZero 0x0#4) ∧ decode 0x3100#16 = .error (.mustBeZero 0x3#4) ∧
      decode 0x5004#16 = .error (.noSuchRegister 4#8) ∧ decode 0xEFFF#16 = .error (.reservedOpcode 0xE#4) := by decide

/-! ## Decoding: words written out bit by bit from the formats of 30_encoding.md R51 and the opcodes of R52 -/

/-- OP 0000, ZERO12. -/
theorem test_decode_nop : decode 0b0000000000000000#16 = .ok .nop := by decide

/-- OP 0001, KEY12 = 0000 0000 0101 (5) and 1111 1111 1111 (4095). -/
theorem test_decode_ksa :
    decode 0b0001000000000101#16 = .ok (.ksa 5#12) ∧ decode 0b0001111111111111#16 = .ok (.ksa 4095#12) := by decide

/-- OP 0010, ZERO12. -/
theorem test_decode_ksar : decode 0b0010000000000000#16 = .ok .ksar := by decide

/-- OP 0011, ZERO4, ARG = 0100 1000 ('H'). -/
theorem test_decode_crypt : decode 0b0011000001001000#16 = .ok (.crypt 0x48#8) := by decide

/-- OP 0100, ZERO4, ARG = 1110 0000. -/
theorem test_decode_peek : decode 0b0100000011100000#16 = .ok (.peek 0xE0#8) := by decide

/-- OP 0101, ZERO4, ARG = register number 0 to 3 (R17). -/
theorem test_decode_rdreg :
    decode 0b0101000000000000#16 = .ok (.rdreg .status) ∧ decode 0b0101000000000001#16 = .ok (.rdreg .key) ∧
      decode 0b0101000000000010#16 = .ok (.rdreg .i) ∧ decode 0b0101000000000011#16 = .ok (.rdreg .j) := by decide

/-- OP 1111, ZERO12. -/
theorem test_decode_clr : decode 0b1111000000000000#16 = .ok .clr := by decide

/-- The encoder, on the examples of R61. -/
theorem test_encode_examples :
    encode (.ksa 256#12) = 0x1100#16 ∧ encode (.crypt 0x48#8) = 0x3048#16 ∧ encode (.rdreg .j) = 0x5003#16 := by decide

/-- The table's words: one 16-bit word, whole; a number that does not fit is no command. -/
theorem test_decodeTableWord :
    decodeTableWord 16 0x4002 = some (.peek 2#8) ∧ decodeTableWord 16 0x14002 = none ∧
      decodeTableWord 16 0x6000 = none := by decide

/-- The placed word is what the next step runs: CLR from reset answers 0x0000. -/
theorem test_withFetchWord_runs :
    (stateOf (step (State.reset.withFetchWord 16 0xF000))).rsp = some 0x0000#16 ∧
      (stateOf (step (State.reset.withFetchWord 16 0x3041))).rsp = some 0x0200#16 := by decide

/-! ## Single steps -/

/-- 42_access_control.md R110: NOP -> 0x0000, ERR kept. -/
theorem test_nop_keeps_err :
    responseOf 0x0000#16 0#8 { State.reset with err := .notKeyed } = some 0x0000#16 ∧
      (stateOf (exec .nop { State.reset with err := .notKeyed })).err = .notKeyed := by decide

/-- 95_test_vectors.md 3.5: keys 0, 256 and 4095 are refused, whether keyed or not. -/
theorem test_ksa_bad_keys :
    responseOf 0x1000#16 0#8 State.reset = some 0x0100#16 ∧ responseOf 0x1100#16 0#8 keyedIdentity = some 0x0100#16 ∧
      responseOf 0x1FFF#16 0#8 State.reset = some 0x0100#16 := by decide

/-- 95_test_vectors.md 3.2, KEY = 5: after iterations I = 0 to 9 J is 60, S[9] is 60 and S[60] is 9. -/
theorem test_ksa_first_iterations :
    let p := (List.range 10).foldl (mixIteration (fun _ => 0#8) 5#8)
      ((List.range 61).foldl (fun m a => Memory.write m (mod256 a) (mod256 a)) [], 0#8)
    p.2 = 60#8 ∧ Memory.stored p.1 9#8 = some 60#8 ∧ Memory.stored p.1 60#8 = some 9#8 ∧
      Memory.stored p.1 1#8 = some 2#8 ∧ Memory.stored p.1 2#8 = some 5#8 := by decide +kernel

/-- 95_test_vectors.md 3.1: T(i) = i mod KEY, from the counter's rule too. -/
theorem test_table_entries :
    tableEntry 5#8 9 = 4 ∧ tableEntry 1#8 255 = 0 ∧ tableEntry 255#8 255 = 0 ∧ tableEntry 128#8 250 = 122 ∧
      nextTc 5#8 4#8 = 0#8 ∧ nextTc 5#8 3#8 = 4#8 ∧ nextTc 1#8 0#8 = 0#8 := by decide

/-- 95_test_vectors.md 3.5: KSAR with rnd = 0 fails and ends the session. -/
theorem test_ksar_zero_draw :
    responseOf 0x2000#16 0#8 keyedIdentity = some 0x0100#16 ∧
      (stateOf (step (keyedIdentity.present 0x2000#16 0#8))).keyed = false ∧
      (stateOf (step (keyedIdentity.present 0x2000#16 0#8))).key = 0#8 := by decide

/-- 40_ksa.md R72: the byte sampled is the one at acceptance, and the response carries it. -/
theorem test_ksar_draws_key :
    (stateOf (step (State.reset.present 0x2000#16 0x2A#8))).rsp = some 0x002A#16 ∧
      (stateOf (step (State.reset.present 0x2000#16 0x2A#8))).key = 0x2A#8 := by
  rw [step_present_ok rfl _ test_decode_ksar, exec_ksar, keySchedule_valid (by decide) (by decide)]
  exact ⟨rfl, rfl⟩

/-- 95_test_vectors.md 4.2, step 0: x = 02, J = 02, S[J] = 97, t = 99, k = FE, d = 48, out = B6. -/
theorem test_crypt_first_step :
    let t := stateOf (exec (.crypt 0x48#8) keyedFirstStep)
    t.rsp = some 0x00B6#16 ∧ t.i = 1#8 ∧ t.j = 2#8 ∧ t.pmem = [(1, 0x97#8), (2, 0x02#8), (0x99, 0xFE#8)] := by decide

/-- 95_test_vectors.md 5, step 460 (t = I): I = CD, x = AB, J = D5, S[J] = 22, t = CD, k = 22, the old S[J]; the cursor
before the step is (CC, D5 - AB = 2A). -/
theorem test_crypt_keystream_after_swap :
    let t := stateOf (exec (.crypt 0#8)
      { keyedWith [(0xCD, 0xAB#8), (0xD5, 0x22#8)] with i := 0xCC#8, j := 0x2A#8 })
    t.rsp = some 0x0022#16 ∧ t.i = 0xCD#8 ∧ t.j = 0xD5#8 := by decide

/-- 42_access_control.md R111: after KSA #5, PEEK #0x02 -> 0x0097; refused when not keyed. -/
theorem test_peek :
    responseOf 0x4002#16 0#8 keyedFirstStep = some 0x0097#16 ∧ responseOf 0x4002#16 0#8 State.reset = some 0x0200#16 := by
  decide

/-- 42_access_control.md R112 and 95_test_vectors.md P4: STATUS is 0x20 after a refused CRYPT, 0x31 when keyed with
ERR = 3. -/
theorem test_rdreg_status :
    responseOf 0x5000#16 0#8 (stateOf (exec (.crypt 0x41#8) State.reset)) = some 0x0020#16 ∧
      responseOf 0x5000#16 0#8 { keyedIdentity with err := .illegalCommand } = some 0x0031#16 := by decide

/-- 95_test_vectors.md P1, steps 7 to 9: I = 05, J = E0, KEY = 05. -/
theorem test_rdreg_cursor_and_key :
    let s := { keyedIdentity with i := 5#8, j := 0xE0#8 }
    responseOf 0x5001#16 0#8 s = some 0x0005#16 ∧ responseOf 0x5002#16 0#8 s = some 0x0005#16 ∧
      responseOf 0x5003#16 0#8 s = some 0x00E0#16 := by decide

/-- 42_access_control.md R114: keyed with ERR = 3, CLR -> 0x0000, then STATUS and KEY read 0x00. -/
theorem test_clr :
    let t := stateOf (exec .clr { keyedIdentity with err := .illegalCommand })
    t.rsp = some 0x0000#16 ∧ responseOf 0x5000#16 0#8 t = some 0x0000#16 ∧ responseOf 0x5001#16 0#8 t = some 0x0000#16 ∧
      responseOf 0x3000#16 0#8 t = some 0x0200#16 := by decide

/-- 60_exceptions.md R156: the word 0x3141 on a block that is not keyed is ILLEGAL_COMMAND; the session is kept. -/
theorem test_illegal_word :
    responseOf 0x3141#16 0#8 State.reset = some 0x0300#16 ∧
      (stateOf (step (keyedFirstStep.present 0x3141#16 0#8))).keyed = true := by decide

/-- 95_test_vectors.md 5, the XOR line: k = FE with 00, FF, 48, FE, 01 gives FE, 01, B6, 00, FF. -/
theorem test_crypt_xor :
    [0x00#8, 0xFF#8, 0x48#8, 0xFE#8, 0x01#8].map (fun d => (stateOf (exec (.crypt d) keyedFirstStep)).rsp) =
      [some 0x00FE#16, some 0x0001#16, some 0x00B6#16, some 0x0000#16, some 0x00FF#16] := by decide

/-- 70_reset_and_hazards.md R185: swapping a location with itself keeps it. -/
theorem test_swap_with_itself :
    Memory.swap [(3, 7#8), (9, 1#8)] (fun _ => 0#8) 3#8 3#8 = [(3, 7#8), (9, 1#8)] ∧
      Memory.swap [(3, 7#8), (9, 1#8)] (fun _ => 0#8) 3#8 9#8 = [(3, 1#8), (9, 7#8)] := by decide

/-- 41_prga.md R91 in the sequencer: four micro-operations give 0x00B6, read S[1], read S[2], write both, read S[99]. -/
theorem test_sequencer_crypt :
    (ticks (.crypt 0x48#8) 4 (startCommand (.crypt 0x48#8) keyedFirstStep)).block.rsp = some 0x00B6#16 ∧
      portSignals (.crypt 0x48#8) (ticks (.crypt 0x48#8) 3 (startCommand (.crypt 0x48#8) keyedFirstStep)) =
        (readPort 0x99#8, idlePort) := by decide

/-- 10_state.md R24 and 43_host_interface.md R141: a reset in mid-command gives no response and ends it. -/
theorem test_reset_mid_command :
    let t := stateOf (step { keyedIdentity with phase := .ksaMix, inputs := [.reset, .quiet] })
    t.rsp = none ∧ t.phase = .idle ∧ t.keyed = false ∧ t.inputs = [.quiet] := by decide

/-! ## Witnesses: concrete states and operands that meet the hypotheses of each obligation, clause by clause -/

theorem witness_EncodeDecodeAgree : decode 0x1005#16 = .ok (.ksa 5#12) ∧ decode 0xF000#16 = .ok .clr := by decide

theorem witness_DecodeFollowsOpcodeMap :
    (∃ r, r ∈ opcodeMap ∧ r.selects 0x50FC#16 = false ∧ r.selects 0x5003#16 = true) ∧
      decode 0x1FFF#16 = .ok (.ksa 0xFFF#12) ∧ decode 0x30FF#16 = .ok (.crypt 0xFF#8) ∧
      decode 0x4000#16 = .ok (.peek 0#8) ∧ decode 0x5003#16 = .ok (.rdreg .j) := by decide

theorem witness_ReservedOpcodesSelectNothing :
    (0x6 ≤ (opField 0x6000#16).toNat ∧ (opField 0x6000#16).toNat ≤ 0xE) ∧
      (0x6 ≤ (opField 0xEFFF#16).toNat ∧ (opField 0xEFFF#16).toNat ≤ 0xE) := by decide

theorem witness_IllegalWordOnlySetsErr :
    State.reset.phase = .idle ∧ (decode 0x7ABC#16).toOption = none ∧ (decode 0x0001#16).toOption = none ∧
      (decode 0x3100#16).toOption = none ∧ (decode 0x5004#16).toOption = none := by decide

theorem witness_StepRunsDecodedCommand :
    keyedIdentity.phase = .idle ∧ (keyedIdentity.present 0x3048#16 7#8).inputs = .command 0x3048#16 7#8 :: [] ∧
      decode 0x3048#16 = .ok (.crypt 0x48#8) := by decide

theorem witness_EveryCommandGivesOneResponse : State.reset.phase = .idle ∧ keyedIdentity.phase = .idle := by decide

theorem witness_QuietStepHoldsState :
    State.reset.inputs = [] ∧
      ({ State.reset with inputs := [.quiet, .reset] } : State).inputs = .quiet :: [.reset] := by decide

theorem witness_BusyBlockHoldsCommand :
    (let s : State := { State.reset with phase := .prgaStep, inputs := [.command 0x0000#16 0#8] }
     s.phase ≠ .idle ∧ s.inputs = .command 0x0000#16 0#8 :: []) ∧
    (let s : State := { keyedFirstStep with phase := .ksaMix, inputs := [.reset] }
     s.inputs = .reset :: []) := by decide

theorem witness_ResetAbandonsCommand :
    let s : State := { keyedIdentity with phase := .ksaInit, inputs := [.reset] }
    s.inputs = .reset :: [] ∧ keyedIdentity.phase = .idle := by decide

theorem witness_RndIgnoredExceptByKsar : Instr.nop ≠ .ksar ∧ Instr.crypt 0#8 ≠ .ksar ∧ Instr.ksa 1#12 ≠ .ksar := by decide

theorem witness_NothingOfThePortsIsKept :
    keyedFirstStep.phase = .idle ∧ (∃ t, step (keyedFirstStep.present 0x3048#16 7#8) = .next t) ∧
      State.reset.rnd = none ∧ (∃ t, step State.reset = .next t) :=
  ⟨rfl, ⟨_, rfl⟩, rfl, _, rfl⟩

theorem witness_PortsDoOneAccessForOneOwner :
    portsClash (writePort 3#8 1#8) (writePort 4#8 2#8) = false ∧ portsClash (writePort 3#8 1#8) (writePort 3#8 1#8) = false ∧
      portsClash (readPort 3#8) (writePort 3#8 1#8) = false ∧ portsClash (writePort 3#8 1#8) (writePort 3#8 2#8) = true ∧
      ((writePort 3#8 1#8).we = true → 5#8 ≠ (writePort 3#8 1#8).addr) ∧ (readPort 3#8).we = false ∧
      (startCommand .nop State.reset).block.phase = .idle ∧
      (startCommand (.peek 2#8) keyedFirstStep).block.phase = .access := by decide

/-- A command given to an idle block whose third micro-operation writes on both ports: for BothPortsWriteOnlyInSwap. -/
theorem witness_BothPortsWriteOnlyInSwap :
    let q := ticks (.crypt 0#8) 2 (startCommand (.crypt 0#8) keyedFirstStep)
    keyedFirstStep.phase = .idle ∧ portSignals (.crypt 0#8) q = (writePort 1#8 0x97#8, writePort 2#8 0x02#8) ∧
      (let p := ticks (.crypt 0#8) 2 (startCommand (.crypt 0#8) (keyedWith [(1, 1#8)]))
       p.block.i = p.block.j ∧ portSignals (.crypt 0#8) p = (writePort 1#8 1#8, writePort 1#8 1#8)) := by decide

theorem witness_InstancesShareNothing :
    (1 : Nat) ≠ 0 ∧ ([State.reset, keyedFirstStep] : Instances)[0]? = ([State.reset, State.reset] : Instances)[0]? ∧
      ([State.reset, keyedFirstStep] : Instances)[1]? = some keyedFirstStep ∧
      ∃ t, step keyedFirstStep = .next t :=
  ⟨by decide, rfl, rfl, _, rfl⟩

theorem witness_SwapExchangesTwoEntries : (3#8 : Byte) = 3#8 ∧ (5#8 : Byte) ≠ 3#8 ∧ IsPermutation keyedIdentity.pmem :=
  ⟨rfl, by decide, keyedIdentity_permutation⟩

theorem witness_StepKeepsCanonicalMemory :
    Canonical State.reset ∧ Canonical keyedIdentity ∧ (∃ t, step (keyedIdentity.present 0x3048#16 0#8) = .next t) :=
  ⟨⟨rfl, rfl⟩, keyedIdentity_canonical, _, by
    rw [step_present_ok rfl _ test_decode_crypt, exec_crypt]⟩

/-- The range of valid keys, at both ends: for KsaValidKeyCompletes, KsaComputesSourcePermutation,
KeyScheduleLeavesPermutation, CallComputesSourceRc4 and CallIsInvolution. -/
theorem witness_validKeys :
    (1 ≤ (1#12).toNat ∧ (1#12).toNat ≤ 255) ∧ (1 ≤ (255#12).toNat ∧ (255#12).toNat ≤ 255) ∧
      State.reset.phase = .idle ∧ keyedIdentity.phase = .idle := by decide

/-- The refused keys, at both ends of both ranges: for KsaInvalidKeyEndsSession and CallWithBadKeyFails. -/
theorem witness_invalidKeys :
    ((0#12).toNat = 0 ∨ 256 ≤ (0#12).toNat) ∧ ((256#12).toNat = 0 ∨ 256 ≤ (256#12).toNat) ∧
      ((4095#12).toNat = 0 ∨ 256 ≤ (4095#12).toNat) ∧ drawnByte { State.reset with rnd := some 0#8 } = 0#8 ∧
      State.reset.phase = .idle ∧
      State.reset.keyed = false := by decide

theorem witness_KsaInvalidKeyEndsSession_other :
    State.reset.keyed = false ∧ Instr.peek 0#8 ≠ .ksar ∧ (∀ k, Instr.peek 0#8 ≠ .ksa k) ∧
      ∃ t, exec (.peek 0#8) State.reset = .next t :=
  ⟨rfl, by decide, fun _ => by simp, _, rfl⟩

/-- The drawn byte at the ends of its range: for KsarDrawsKeyFromPort, KeyScheduleLeavesPermutation and
DrawnKeyCallEqualsKeyedCall. -/
theorem witness_drawnKeys :
    drawnByte { State.reset with rnd := some 1#8 } ≠ 0#8 ∧ drawnByte { State.reset with rnd := some 255#8 } ≠ 0#8 ∧
      drawnByte { State.reset with rnd := some 0#8 } = 0#8 ∧ State.reset.phase = .idle ∧ (255#8 : Byte) ≠ 0#8 := by
  decide

theorem witness_KeyScheduleDependsOnKeyAlone :
    State.reset ≠ keyedFirstStep ∧ (drawnByte { keyedFirstStep with rnd := some 255#8 }).toNat = (255#12).toNat ∧
      drawnByte { State.reset with rnd := some 1#8 } ≠ 0#8 ∧
      drawnByte { State.reset with rnd := some 1#8 } = drawnByte { keyedFirstStep with rnd := some 1#8 } := by decide

theorem witness_KeyScheduleFrame :
    (∃ t, exec (.ksa 5#12) State.reset = .next t ∧ t.keyed = true) ∧
      (∃ t, exec .ksar { State.reset with rnd := some 0#8 } = .next t ∧ t.keyed = false) :=
  ⟨⟨_, by rw [exec_ksa, keySchedule_valid (by decide) (by decide)], rfl⟩, _, rfl, rfl⟩

/-- For CounterGeneratesTable and MixingSumNeedsNoCarry. -/
theorem witness_nonzeroKeys : (1#8 : Byte) ≠ 0#8 ∧ (255#8 : Byte) ≠ 0#8 := by decide

theorem witness_SequencerRefinesCommands : State.reset.phase = .idle ∧ keyedIdentity.phase = .idle := by decide

/-- A keyed state: for CryptRunsOneStep, CryptXorsBitByBit, CryptZeroReturnsKeystream and PeekReadsOneEntry. -/
theorem witness_keyed :
    keyedFirstStep.keyed = true ∧ keyedIdentity.keyed = true ∧ IsPermutation keyedIdentity.pmem ∧
      Memory.stored keyedFirstStep.pmem 2#8 = some 0x97#8 ∧ State.reset.keyed = false :=
  ⟨rfl, rfl, keyedIdentity_permutation, rfl, rfl⟩

/-- A state that is not keyed: for CryptNotKeyedIsRefused. -/
theorem witness_CryptNotKeyedIsRefused : State.reset.keyed = false := rfl

/-- The three coincidences, with the bytes of 95_test_vectors.md section 5: I = J (step 157), t = J (step 65),
t = I (step 460). -/
theorem witness_CryptCoincidingAddresses :
    (let u := stateOf (exec (.crypt 0#8) { keyedWith [(0x9E, 0xFE#8), (0xFC, 0x28#8)] with i := 0x9D#8, j := 0xA0#8 })
     u.i = u.j ∧ u.rsp = some 0x0028#16) ∧
    (let u := stateOf (exec (.crypt 0#8) { keyedWith [(0x42, 0x76#8), (0xD0, 0x5A#8)] with i := 0x41#8, j := 0x5A#8 })
     mod256 ((readS u u.i).toNat + (readS u u.j).toNat) = u.j ∧ u.rsp = some 0x0076#16) ∧
    (let u := stateOf (exec (.crypt 0#8) { keyedWith [(0xCD, 0xAB#8), (0xD5, 0x22#8)] with i := 0xCC#8, j := 0x2A#8 })
     mod256 ((readS u u.i).toNat + (readS u u.j).toNat) = u.i ∧ u.rsp = some 0x0022#16) := by decide

theorem witness_CryptCursorWraps :
    let s : State := { keyedIdentity with i := 255#8 }
    let t : State := { keyedIdentity with i := 254#8 }
    s.keyed = true ∧ s.i = 255#8 ∧ t.keyed = true ∧ t.i ≠ 255#8 ∧ keyedIdentity.i ≠ 255#8 := by decide

theorem witness_CryptFrame :
    keyedFirstStep.keyed = true ∧ (∃ t, exec (.crypt 0x48#8) keyedFirstStep = .next t) ∧
      0x99#8 ≠ mod256 (keyedFirstStep.i.toNat + 1) ∧
      0x99#8 ≠ mod256 (keyedFirstStep.j.toNat + (readS keyedFirstStep (mod256 (keyedFirstStep.i.toNat + 1))).toNat) :=
  ⟨rfl, ⟨_, rfl⟩, by decide, by decide⟩

theorem witness_NopChangesNothing :
    (0x0001 ≤ (0x0001#16).toNat ∧ (0x0001#16).toNat ≤ 0x0FFF) ∧
      (0x0001 ≤ (0x0FFF#16).toNat ∧ (0x0FFF#16).toNat ≤ 0x0FFF) := by decide

theorem witness_RdregReadsRegister :
    SessionInv State.reset ∧ State.reset.keyed = false ∧
      (0x5004 ≤ (0x5004#16).toNat ∧ (0x5004#16).toNat ≤ 0x50FF) ∧
      (0x5004 ≤ (0x50FF#16).toNat ∧ (0x50FF#16).toNat ≤ 0x50FF) :=
  ⟨reset_invariant, rfl, by decide, by decide⟩

theorem witness_ClrReturnsToResetState :
    (0xF001 ≤ (0xF001#16).toNat ∧ (0xF001#16).toNat ≤ 0xFFFF) ∧
      (0xF001 ≤ (0xFFFF#16).toNat ∧ (0xFFFF#16).toNat ≤ 0xFFFF) ∧
      (∃ t, exec .clr { State.reset with err := .notKeyed } = .next t ∧ t.err = .ok) :=
  ⟨by decide, by decide, _, rfl, rfl⟩

theorem witness_InspectionHasNoSideEffects :
    keyedIdentity.phase = .idle ∧ (∃ a, Instr.peek 255#8 = .peek a) ∧ (∃ r, Instr.rdreg .j = .rdreg r) ∧
      (stateOf (exec (.peek 2#8) keyedFirstStep)).rsp = some (responseWord .ok 0x97#8) ∧
      (stateOf (exec (.peek 255#8) State.reset)).rsp = some (responseWord .notKeyed 0#8) :=
  ⟨rfl, ⟨_, rfl⟩, ⟨_, rfl⟩, by decide, by decide⟩

theorem witness_ChecksHavePriority :
    State.reset.phase = .idle ∧ (decode 0x3141#16).toOption = none ∧ State.reset.keyed = false ∧
      decode 0x3041#16 = .ok (.crypt 0x41#8) ∧ decode 0x4000#16 = .ok (.peek 0#8) ∧
      decode 0x1100#16 = .ok (.ksa 256#12) ∧ 256 ≤ (256#12).toNat ∧ decode 0x2000#16 = .ok .ksar := by decide

/-- One failing command of each code: for FailingCommandHasNoPartialEffect and the first clause of ErrIsSticky. -/
theorem witness_failingCommands :
    (stateOf (step (State.reset.present 0x1000#16 0#8))).rsp = some (responseWord .invalidArgument 0#8) ∧
      (stateOf (step (State.reset.present 0x3000#16 0#8))).rsp = some (responseWord .notKeyed 0#8) ∧
      (stateOf (step (State.reset.present 0x7000#16 0#8))).rsp = some (responseWord .illegalCommand 0#8) ∧
      (∀ w r, ∃ t, step (State.reset.present w r) = .next t) :=
  ⟨by decide, by decide, by decide, fun w r => by
    rcases hd : decode w with e | i
    · exact ⟨_, step_present_error rfl r hd⟩
    · rw [step_present_ok rfl r hd]
      exact exec_next i _⟩

theorem witness_ErrIsSticky :
    (stateOf (step (keyedIdentity.present 0x0000#16 0#8))).rsp = some (responseWord .ok 0#8) ∧
      (stateOf (step (keyedIdentity.present 0xF000#16 0#8))).rsp = some (responseWord .ok 0#8) ∧
      (let s : State := { State.reset with err := .notKeyed, inputs := [.reset] }
       s.inputs = .reset :: [] ∧ ∃ t, step s = .next t) ∧ Instr.rdreg .key ≠ .rdreg .status :=
  ⟨by decide, by decide, ⟨rfl, _, rfl⟩, by decide⟩

theorem witness_KeyedChangesOnlyByScheduleOrClear :
    keyedFirstStep.phase = .idle ∧ (∃ t, step (keyedFirstStep.present 0x3048#16 0#8) = .next t) ∧
      decode 0x3048#16 ≠ .ok .clr ∧ decode 0x3048#16 ≠ .ok .ksar ∧ (∀ k, decode 0x3048#16 ≠ .ok (.ksa k)) ∧
      (let s : State := { keyedFirstStep with inputs := [.reset] }
       s.inputs = .reset :: [] ∧ ∃ t, step s = .next t) ∧ State.reset.keyed = false :=
  ⟨rfl, ⟨_, rfl⟩, by decide, by decide, fun k h => by (rw [test_decode_crypt] at h; cases h), ⟨rfl, _, rfl⟩, rfl⟩

theorem witness_RegistersWrittenOnlyByTheirCommands :
    (∃ t, exec (.peek 0#8) keyedFirstStep = .next t) ∧ Instr.peek 0#8 ≠ .ksar ∧ (∀ k, Instr.peek 0#8 ≠ .ksa k) ∧
      Instr.peek 0#8 ≠ .clr ∧ (∀ d, Instr.peek 0#8 ≠ .crypt d) ∧ (∃ t, exec (.crypt 1#8) keyedFirstStep = .next t) :=
  ⟨⟨_, rfl⟩, by decide, fun _ => by simp, by decide, fun _ => by simp, _, rfl⟩

theorem witness_NotKeyedHoldsNoValue :
    (State.reset.keyed = false → Unspecified State.reset.pmem) ∧ (∃ t, step State.reset = .next t ∧ t.keyed = false) ∧
      (keyedIdentity.keyed = false → Unspecified keyedIdentity.pmem) ∧
      (∃ t, step (keyedIdentity.present 0xF000#16 0#8) = .next t ∧ t.keyed = false) :=
  ⟨fun _ _ => rfl, ⟨_, rfl, rfl⟩, fun h => absurd h (by decide), _, rfl, rfl⟩

theorem witness_StepKeepsInvariant :
    SessionInv State.reset ∧ SessionInv keyedIdentity ∧
      (∃ t, step (keyedIdentity.present 0x3048#16 0#8) = .next t) ∧ (∃ t, step State.reset = .next t) :=
  ⟨reset_invariant, keyedIdentity_invariant,
    ⟨_, by rw [step_present_ok rfl _ test_decode_crypt, exec_crypt]⟩, _, rfl⟩

/-- Two blocks that differ in what their unwritten or stale bytes are, and two keyed ones that differ in T and TC. -/
theorem witness_UnspecifiedBytesNeverReachHost :
    (let s₂ : State := { State.reset with pmem := [(0, 7#8)] }
     Canonical State.reset ∧ Canonical s₂ ∧ State.reset ≠ s₂ ∧ SameButUnspecified State.reset s₂ ∧
      (State.reset.keyed = true → IsPermutation State.reset.pmem)) ∧
    (let s₂ : State := { keyedIdentity with tc := 9#8, freeIx := 4 }
     Canonical keyedIdentity ∧ Canonical s₂ ∧ SameButUnspecified keyedIdentity s₂ ∧
      (keyedIdentity.keyed = true → IsPermutation keyedIdentity.pmem)) :=
  ⟨⟨⟨rfl, rfl⟩, ⟨rfl, rfl⟩, by decide,
      ⟨rfl, rfl, rfl, rfl, rfl, rfl, rfl, rfl, rfl, fun h => absurd h (by decide)⟩, fun h => absurd h (by decide)⟩,
    ⟨keyedIdentity_canonical, keyedIdentity_canonical,
      ⟨rfl, rfl, rfl, rfl, rfl, rfl, rfl, rfl, rfl, fun _ => rfl⟩, fun _ => keyedIdentity_permutation⟩⟩

theorem witness_CursorFollowsStreamPosition :
    keyedIdentity.phase = .idle ∧ keyedIdentity.keyed = true ∧ keyedIdentity.i = 0#8 := by decide

theorem witness_StateIndependentOfSymbols :
    State.reset.phase = .idle ∧ keyedIdentity.phase = .idle ∧ (1 ≤ (255#12).toNat ∧ (255#12).toNat ≤ 255) ∧
      ([0x61#8, 0x62#8] : List Byte).length = ([0x00#8, 0xFF#8] : List Byte).length := by decide

end Sys2Proof.Tests
end

/-! SUPPORT. Laws about the machine's shared operations that the statements about the block's state rest on. -/

namespace Sys2Proof.Machine

/-! ### STATUS as its three fields (10_state.md R17) -/

theorem statusByte_keyedField (s : State) : (statusByte s).getLsbD 0 = s.keyed := by
  rw [statusByte, keyedBit, BitVec.getLsbD_append, if_pos (by decide), BitVec.getLsbD_ofBool, decide_eq_true rfl,
    Bool.true_and]

theorem statusByte_reservedField (s : State) : (statusByte s).extractLsb' 1 3 = 0#3 := by
  unfold statusByte
  rw [BitVec.extractLsb'_append_eq_of_le (by decide), BitVec.extractLsb'_append_eq_of_add_le (by decide),
    BitVec.extractLsb'_eq_self]

theorem statusByte_errField (s : State) : (statusByte s).extractLsb' 4 4 = errBits s.err := by
  unfold statusByte
  rw [BitVec.extractLsb'_append_eq_of_le (by decide), BitVec.extractLsb'_append_eq_of_le (by decide),
    BitVec.extractLsb'_eq_self]

/-- The four bits of ERR carry the number of the result code (R19, R151). -/
theorem errBits_toNat (c : ResultCode) : (errBits c).toNat = (codeNumber c).toNat := by
  cases c <;> rfl

theorem errBits_eq_zero {c : ResultCode} : errBits c = 0#4 ↔ c = .ok := by
  cases c <;> decide

theorem codeNumber_le_three (c : ResultCode) : (codeNumber c).toNat ≤ 3 := by
  cases c <;> decide

/-! ### `raise`: ending a command with an error (60_exceptions.md R157) -/

@[simp] theorem raise_err (e : ErrorKind) (s : State) : (raise e s).err = errorCode e := by
  cases e <;> rfl

@[simp] theorem raise_rsp (e : ErrorKind) (s : State) :
    (raise e s).rsp = some (responseWord (errorCode e) 0#8) := by
  cases e <;> rfl

@[simp] theorem raise_invalidArgument_keyed (s : State) : (raise .invalidArgument s).keyed = false := rfl

theorem raise_keyed {e : ErrorKind} (h : e ≠ .invalidArgument) (s : State) : (raise e s).keyed = s.keyed := by
  cases e with
  | invalidArgument => exact absurd rfl h
  | notKeyed => rfl
  | illegalCommand => rfl

theorem errorCode_ne_ok (e : ErrorKind) : errorCode e ≠ .ok := by
  cases e <;> decide

/-! ### `prgaStep`: what one generation step leaves in the registers (41_prga.md R92) -/

@[simp] theorem prgaStep_key (d : Byte) (s : State) : (prgaStep d s).key = s.key := rfl
@[simp] theorem prgaStep_keyed (d : Byte) (s : State) : (prgaStep d s).keyed = s.keyed := rfl
@[simp] theorem prgaStep_err (d : Byte) (s : State) : (prgaStep d s).err = s.err := rfl
@[simp] theorem prgaStep_phase (d : Byte) (s : State) : (prgaStep d s).phase = .idle := rfl

/-- S changes by one swap, at the cursor the step leaves. -/
theorem prgaStep_pmem (d : Byte) (s : State) :
    (prgaStep d s).pmem =
      Memory.swap s.pmem (Config.unwrittenByte s.freeIx) (prgaStep d s).i (prgaStep d s).j := rfl

/-! ### Key schedules (40_ksa.md R73, R77, R81) -/

/-- A byte other than 0 is a valid key (R72, R73). -/
theorem byte_ne_zero_iff {r : Byte} : r ≠ 0#8 ↔ 1 ≤ r.toNat ∧ r.toNat ≤ 255 := by
  have hlt := r.isLt
  rw [ne_eq, ← BitVec.toNat_inj, BitVec.toNat_ofNat]
  omega

/-- A key schedule leaves KEYED = 1 exactly when its key is valid. -/
theorem keySchedule_keyed {k : Nat} {s : State} : (keySchedule k s).keyed = true ↔ 1 ≤ k ∧ k ≤ 255 := by
  rcases keySchedule_cases k s with ⟨hk, h⟩ | ⟨hk, h⟩
  · rw [h, raise_invalidArgument_keyed]
    exact ⟨fun hf => absurd hf (by decide), fun _ => by omega⟩
  · rw [h]
    exact ⟨fun _ => hk, fun _ => rfl⟩

@[simp] theorem drawnByte_sampled (r : Byte) (s : State) : drawnByte { s with rnd := some r } = r := rfl

/-! ### Steps of one kind -/

/-- A command given to an idle block: it runs, or its word is refused. -/
theorem step_present_cases {s t : State} {w : Word} {r : Byte} (hs : s.phase = .idle)
    (h : step (s.present w r) = .next t) :
    (∃ i, decode w = .ok i ∧ exec i { s with rnd := some r } = .next t) ∨
    (∃ e, decode w = .error e ∧ t = illegalCommand { s with rnd := some r }) := by
  rcases hw : decode w with e | i
  · rw [step_present_error hs r hw, next_inj] at h
    exact .inr ⟨e, rfl, h.symm⟩
  · exact .inl ⟨i, rfl, step_present_ok hs r hw ▸ h⟩

/-- A reset event resets the block, in every phase (R141, R180). -/
theorem step_reset {s : State} {rest : List HostEvent} (h : s.inputs = .reset :: rest) :
    step s = .next (s.afterReset rest) := by
  simp [step, State.fetch, State.withoutCommand, h]

/-- Every step answers a next state (R134). -/
theorem step_next (s : State) : ∃ t, step s = .next t := by
  rcases step_cases s with ⟨_, s', i, -, -, h⟩ | ⟨_, _, _, -, -, h⟩ | ⟨-, h⟩
  · rw [h]
    exact exec_next i s'
  · exact ⟨_, h⟩
  · exact ⟨_, h⟩

/-! ### Runs -/

/-- The first step of a run, of any machine. -/
theorem run_succ_of_step {M : Host.Core} {s t : M.State} (h : M.step s = .next t) (n : Nat) :
    M.run (n + 1) s = M.run n t := by
  rw [Host.Core.run, h]

/-- What every step keeps, every run keeps, and no run stops. -/
theorem run_keeps {P : State → Prop} (hstep : ∀ s t, P s → step s = .next t → P t) (n : Nat) {s : State}
    (hs : P s) : ∃ t, Host.Core.run core n s = .next t ∧ P t := by
  induction n generalizing s with
  | zero => exact ⟨s, rfl, hs⟩
  | succ n ih =>
    obtain ⟨t, ht⟩ := step_next s
    rw [run_succ_of_step (M := core) ht]
    exact ih (hstep s t hs ht)

/-! ### Permutations: only the identity writes and swaps touch S (20_memory.md R46, 40_ksa.md R74, R76) -/

/-- Contents that are a permutation, read through a bijection of the addresses, are a permutation. -/
theorem IsPermutation.of_equiv {m m' : Memory} (hm : IsPermutation m) (σ : Equiv.Perm Byte)
    (hσ : ∀ a, Memory.stored m' a = Memory.stored m (σ a)) : IsPermutation m' := by
  obtain ⟨hsome, huniq⟩ := hm
  refine ⟨fun a => hσ a ▸ hsome (σ a), fun v => ?_⟩
  simp only [hσ]
  exact σ.bijective.existsUnique_iff.mp (huniq v)

/-- A swap of two locations that hold values exchanges the addresses. -/
theorem Memory.stored_swap_equiv {m : Memory} {a b : Byte} (u : Byte → Byte) (ha : (Memory.stored m a).isSome)
    (hb : (Memory.stored m b).isSome) (c : Byte) :
    Memory.stored (Memory.swap m u a b) c = Memory.stored m (Equiv.swap a b c) := by
  rw [Memory.stored_swap, ← Memory.stored_eq_read u ha, ← Memory.stored_eq_read u hb, Equiv.swap_apply_def]
  split_ifs with hcb hca hca
  · rw [← hcb, hca]
  · rfl
  · rfl
  · rfl

theorem IsPermutation.swap {m : Memory} (h : IsPermutation m) (u : Byte → Byte) (a b : Byte) :
    IsPermutation (Memory.swap m u a b) :=
  h.of_equiv (Equiv.swap a b) (Memory.stored_swap_equiv u (h.1 a) (h.1 b))

theorem isPermutation_identityWrites (m : Memory) : IsPermutation (identityWrites m) := by
  refine ⟨fun a => by rw [stored_identityWrites]; rfl, fun v => ⟨v, stored_identityWrites m v, fun a ha => ?_⟩⟩
  simpa [stored_identityWrites] using ha

theorem IsPermutation.mixLoop {m : Memory} (h : IsPermutation m) (u : Byte → Byte) (key : Byte) :
    IsPermutation (mixLoop u key m).1 := by
  unfold Machine.mixLoop
  generalize List.range 256 = l
  generalize (0#8) = j
  induction l generalizing m j with
  | nil => exact h
  | cons i l ih => exact ih (h.swap _ _ _) _

end Sys2Proof.Machine

/-! SUPPORT. Statements about the block's state: the pins, KEYED, ERR and the invariant between commands
(10_state.md R12, R18, R19, R22, R25). -/

namespace Sys2Proof.Machine

/-! ### The invariant of R25 -/

/-- The invariant speaks of PHASE, KEYED, KEY, the cursor and S only. -/
theorem SessionInv.of_sameRegisters {s t : State} (hs : SessionInv s) (hphase : t.phase = .idle)
    (hkeyed : t.keyed = s.keyed) (hkey : t.key = s.key) (hi : t.i = s.i) (hj : t.j = s.j)
    (hpmem : t.pmem = s.pmem) : SessionInv t where
  idle := hphase
  keyed_key := by rw [hkeyed, hkey]; exact hs.keyed_key
  cursor := by rw [hkeyed, hi, hj]; exact hs.cursor
  permutation := by rw [hkeyed, hpmem]; exact hs.permutation

/-- An idle block whose session is over has the invariant, whatever S holds. -/
theorem sessionInv_of_ended {t : State} (hphase : t.phase = .idle) (hkeyed : t.keyed = false) (hkey : t.key = 0#8)
    (hi : t.i = 0#8) (hj : t.j = 0#8) : SessionInv t where
  idle := hphase
  keyed_key := ⟨fun _ => hkey, fun _ => hkeyed⟩
  cursor _ := ⟨hi, hj⟩
  permutation h := absurd (hkeyed.symm.trans h) (by decide)

/-- A keyed idle block with a non-zero key and a permutation in S has the invariant. -/
theorem sessionInv_of_keyed {t : State} (hphase : t.phase = .idle) (hkeyed : t.keyed = true) (hkey : t.key ≠ 0#8)
    (hperm : IsPermutation t.pmem) : SessionInv t where
  idle := hphase
  keyed_key := by simp [hkeyed, hkey]
  cursor h := absurd (hkeyed.symm.trans h) (by decide)
  permutation _ := hperm

theorem SessionInv.raise {s : State} (hs : SessionInv s) (e : ErrorKind) : SessionInv (raise e s) := by
  cases e with
  | invalidArgument => exact sessionInv_of_ended hs.idle rfl rfl rfl rfl
  | notKeyed => exact hs.of_sameRegisters hs.idle rfl rfl rfl rfl rfl
  | illegalCommand => exact hs.of_sameRegisters hs.idle rfl rfl rfl rfl rfl

theorem SessionInv.keySchedule {s : State} (hs : SessionInv s) (k : Nat) : SessionInv (keySchedule k s) := by
  rcases keySchedule_cases k s with ⟨-, h⟩ | ⟨⟨hk₁, hk₂⟩, h⟩ <;> rw [h]
  · exact hs.raise _
  · have hkey : mod256 k ≠ 0#8 := byte_ne_zero_iff.mpr (by rw [toNat_mod256]; omega)
    exact sessionInv_of_keyed rfl rfl hkey ((isPermutation_identityWrites s.pmem).mixLoop _ _)

theorem SessionInv.prgaStep {s : State} (hs : SessionInv s) (hkeyed : s.keyed = true) (d : Byte) :
    SessionInv (prgaStep d s) := by
  have hkey : s.key ≠ 0#8 := fun h0 => absurd (hs.keyed_key.mpr h0) (by simp [hkeyed])
  exact sessionInv_of_keyed (prgaStep_phase d s) (prgaStep_keyed d s ▸ hkeyed) (prgaStep_key d s ▸ hkey)
    (prgaStep_pmem d s ▸ (hs.permutation hkeyed).swap _ _ _)

theorem SessionInv.endAccess {s : State} (hs : SessionInv s) (v : Byte) : SessionInv (endAccess v s) :=
  hs.of_sameRegisters rfl rfl rfl rfl rfl rfl

theorem exec_keeps_sessionInv {i : Instr} {s t : State} (hs : SessionInv s) (h : exec i s = .next t) :
    SessionInv t := by
  cases i with
  | nop => cases h; exact hs.of_sameRegisters hs.idle rfl rfl rfl rfl rfl
  | ksa k => cases h; exact hs.keySchedule _
  | ksar => cases h; exact hs.keySchedule _
  | crypt d =>
    rw [exec_crypt, next_inj] at h
    subst h
    split
    · exact hs.prgaStep ‹_› d
    · exact hs.raise _
  | peek a =>
    rw [exec_peek, next_inj] at h
    subst h
    split
    · exact hs.endAccess _
    · exact hs.raise _
  | rdreg r => cases h; exact hs.endAccess _
  | clr => cases h; exact sessionInv_of_ended hs.idle rfl rfl rfl rfl

theorem SessionInv.withoutCommand {s : State} (hs : SessionInv s) : SessionInv s.withoutCommand := by
  rcases withoutCommand_cases s with ⟨rest, h⟩ | ⟨rest, -, h⟩ <;> rw [h]
  · exact hs.of_sameRegisters hs.idle rfl rfl rfl rfl rfl
  · exact sessionInv_of_ended rfl rfl rfl rfl rfl

/-- Acceptance touches the ports only. -/
theorem SessionInv.of_fetch {s s' : State} {w : Word} (hs : SessionInv s) (h : s.fetch = some (w, s')) :
    SessionInv s' := by
  obtain ⟨-, r, rest, -, rfl⟩ := fetch_eq_some h
  exact hs.of_sameRegisters hs.idle rfl rfl rfl rfl rfl

/-- Every step keeps the invariant of R25. -/
theorem step_keeps_sessionInv (s t : State) (hs : SessionInv s) (h : step s = .next t) : SessionInv t := by
  rcases step_cases s with ⟨w, s', i, hf, -, hstep⟩ | ⟨w, s', e, hf, -, hstep⟩ | ⟨-, hstep⟩ <;> rw [hstep] at h
  · exact exec_keeps_sessionInv (hs.of_fetch hf) h
  · rw [next_inj] at h
    exact h ▸ (hs.of_fetch hf).raise .illegalCommand
  · rw [next_inj] at h
    exact h ▸ hs.withoutCommand

/-- Under the invariant KEYED = 1 says that KEY is in 1..255 (R25 a). -/
theorem SessionInv.keyed_iff {s : State} (hs : SessionInv s) :
    s.keyed = true ↔ 1 ≤ s.key.toNat ∧ s.key.toNat ≤ 255 := by
  rw [← Bool.not_eq_false, hs.keyed_key]
  exact byte_ne_zero_iff

/-- Power-up with any events pending. -/
theorem sessionInv_reset_inputs (events : List HostEvent) : SessionInv { State.reset with inputs := events } :=
  sessionInv_of_ended rfl rfl rfl rfl rfl

/-- Settles O52: each command, refused word and port event keeps `SessionInv`, and `run_keeps` carries it along a
run. -/
theorem stepKeepsInvariant : Obligations.StepKeepsInvariant := by
  refine ⟨step_keeps_sessionInv, fun s hs => hs.keyed_iff, fun s => ⟨statusByte_reservedField s, ?_⟩,
    fun n events => run_keeps step_keeps_sessionInv n (sessionInv_reset_inputs events)⟩
  rw [statusByte_errField, errBits_toNat]
  exact codeNumber_le_three s.err

/-! ### ERR (R19) -/

/-- What a command does to ERR: one that fails has raised its error, one that answers code 0 leaves ERR as it was,
except CLR. -/
theorem exec_err_cases {i : Instr} {s t : State} (h : exec i s = .next t) :
    (∃ e, t = raise e s) ∨
    (∃ d, t.rsp = some (responseWord .ok d) ∧ t.err = if i = .clr then .ok else s.err) := by
  have schedule : ∀ k, (∃ e, keySchedule k s = raise e s) ∨
      (∃ d, (keySchedule k s).rsp = some (responseWord .ok d) ∧ (keySchedule k s).err = s.err) := fun k => by
    rcases keySchedule_cases k s with ⟨-, hk⟩ | ⟨-, hk⟩ <;> rw [hk]
    · exact .inl ⟨_, rfl⟩
    · exact .inr ⟨_, rfl, rfl⟩
  cases i with
  | nop => cases h; exact .inr ⟨_, rfl, rfl⟩
  | ksa k => cases h; exact schedule _
  | ksar => cases h; exact schedule _
  | crypt d =>
    rw [exec_crypt, next_inj] at h
    subst h
    split
    · exact .inr ⟨_, rfl, prgaStep_err d s⟩
    · exact .inl ⟨_, rfl⟩
  | peek a =>
    rw [exec_peek, next_inj] at h
    subst h
    split
    · exact .inr ⟨_, rfl, rfl⟩
    · exact .inl ⟨_, rfl⟩
  | rdreg r => cases h; exact .inr ⟨_, rfl, rfl⟩
  | clr => cases h; exact .inr ⟨_, rfl, rfl⟩

/-- A raised error is in ERR with the code of its response. -/
theorem raise_err_of_rsp {e : ErrorKind} {s : State} {c : ResultCode} {d : Byte}
    (h : (raise e s).rsp = some (responseWord c d)) : c ≠ .ok ∧ (raise e s).err = c := by
  rw [raise_rsp, Option.some_inj, responseWord_inj] at h
  obtain ⟨rfl, -⟩ := h
  exact ⟨errorCode_ne_ok e, raise_err e s⟩

/-- ERR after a command given to an idle block, by the code of its response. -/
theorem err_of_step_present {s t : State} {w : Word} {r : Byte} {c : ResultCode} {d : Byte} (hs : s.phase = .idle)
    (h : step (s.present w r) = .next t) (hrsp : t.rsp = some (responseWord c d)) :
    t.err = if c ≠ .ok then c else if decode w = .ok .clr then .ok else s.err := by
  rcases step_present_cases hs h with ⟨i, hw, hexec⟩ | ⟨e, -, rfl⟩
  · rcases exec_err_cases hexec with ⟨e, rfl⟩ | ⟨d', hok, herr⟩
    · obtain ⟨hc, herr⟩ := raise_err_of_rsp hrsp
      rw [if_pos hc, herr]
    · rw [hok, Option.some_inj, responseWord_inj] at hrsp
      obtain ⟨rfl, -⟩ := hrsp
      simp [herr, hw]
  · obtain ⟨hc, herr⟩ := raise_err_of_rsp (e := .illegalCommand) hrsp
    rw [if_pos hc]
    exact herr

/-- A key schedule reads no ERR: from two states that differ in ERR only it leaves two such states. -/
theorem keySchedule_ignores_err (k : Nat) (s : State) (e : ResultCode) :
    { keySchedule k { s with err := e } with err := (keySchedule k s).err } = keySchedule k s := by
  unfold keySchedule
  split
  · rfl
  · rfl

/-- ERR gates no command but RDREG STATUS: with another ERR the same state is left, but for ERR itself. -/
theorem exec_ignores_err {i : Instr} (hi : i ≠ .rdreg .status) (s : State) (e : ResultCode) :
    ∃ t u, exec i s = .next t ∧ exec i { s with err := e } = .next u ∧ { u with err := t.err } = t := by
  cases i with
  | nop => exact ⟨_, _, rfl, rfl, rfl⟩
  | ksa k => exact ⟨_, _, rfl, rfl, keySchedule_ignores_err _ s e⟩
  | ksar => exact ⟨_, _, rfl, rfl, keySchedule_ignores_err _ s e⟩
  | crypt d =>
    rcases Bool.eq_false_or_eq_true s.keyed with hk | hk
    · exact ⟨_, _, exec_crypt_keyed hk d, exec_crypt_keyed (s := { s with err := e }) hk d, rfl⟩
    · exact ⟨_, _, exec_crypt_notKeyed hk d, exec_crypt_notKeyed (s := { s with err := e }) hk d, rfl⟩
  | peek a =>
    rcases Bool.eq_false_or_eq_true s.keyed with hk | hk
    · exact ⟨_, _, exec_peek_keyed hk a, exec_peek_keyed (s := { s with err := e }) hk a, rfl⟩
    · exact ⟨_, _, exec_peek_notKeyed hk a, exec_peek_notKeyed (s := { s with err := e }) hk a, rfl⟩
  | rdreg r =>
    cases r with
    | status => exact absurd rfl hi
    | key => exact ⟨_, _, rfl, rfl, rfl⟩
    | i => exact ⟨_, _, rfl, rfl, rfl⟩
    | j => exact ⟨_, _, rfl, rfl, rfl⟩
  | clr => exact ⟨_, _, rfl, rfl, rfl⟩

/-- Settles O48: the code of the response decides ERR, and ERR reaches nothing but the answer of RDREG STATUS. -/
theorem errIsSticky : Obligations.ErrIsSticky := by
  refine ⟨fun s t w r c d hs h hrsp => err_of_step_present hs h hrsp, fun s t rest hin h => ?_,
    fun s => ⟨?_, codeNumber_le_three s.err⟩, fun i s e => ?_⟩
  · rw [step_reset hin, next_inj] at h
    exact h ▸ rfl
  · rw [statusByte_errField, errBits_toNat]
  · by_cases hi : i = .rdreg .status
    · subst hi
      exact ⟨_, _, rfl, rfl, rfl, fun hne => absurd rfl hne⟩
    · obtain ⟨t, u, ht, hu, htu⟩ := exec_ignores_err hi s e
      have hrsp : u.rsp = t.rsp := (congrArg State.rsp htu :)
      exact ⟨t, u, ht, hu, hrsp ▸ htu, fun _ => hrsp⟩

/-! ### KEYED (R18) -/

theorem exec_keeps_keyed {i : Instr} {s t : State} (h : exec i s = .next t) (hksa : ∀ k, i ≠ .ksa k)
    (hksar : i ≠ .ksar) (hclr : i ≠ .clr) : t.keyed = s.keyed := by
  cases i with
  | nop => cases h; rfl
  | ksa k => exact absurd rfl (hksa k)
  | ksar => exact absurd rfl hksar
  | crypt d =>
    rw [exec_crypt, next_inj] at h
    subst h
    split
    · exact prgaStep_keyed d s
    · exact raise_keyed (by decide) s
  | peek a =>
    rw [exec_peek, next_inj] at h
    subst h
    split
    · exact endAccess_keyed _ s
    · exact raise_keyed (by decide) s
  | rdreg r => cases h; rfl
  | clr => exact absurd rfl hclr

/-- A word that is none of KSA, KSAR and CLR, legal or not, leaves KEYED. -/
theorem keyed_of_step_present {s t : State} {w : Word} {r : Byte} (hs : s.phase = .idle)
    (h : step (s.present w r) = .next t) (hksa : ∀ k, decode w ≠ .ok (.ksa k)) (hksar : decode w ≠ .ok .ksar)
    (hclr : decode w ≠ .ok .clr) : t.keyed = s.keyed := by
  rcases step_present_cases hs h with ⟨i, hw, hexec⟩ | ⟨e, -, rfl⟩
  · rw [hw] at hksar hclr
    simp only [hw] at hksa
    exact exec_keeps_keyed (s := { s with rnd := some r }) hexec (fun k hk => hksa k (hk ▸ rfl))
      (fun hk => hksar (hk ▸ rfl)) (fun hk => hclr (hk ▸ rfl))
  · exact raise_keyed (e := .illegalCommand) (by decide) _

/-- Settles O49, command by command. -/
theorem keyedChangesOnlyByScheduleOrClear : Obligations.KeyedChangesOnlyByScheduleOrClear := by
  refine ⟨fun s t w r hs h => ⟨fun k hw => ?_, fun hw => ?_, fun hw => ?_, keyed_of_step_present hs h⟩,
    fun s t rest hin h => ?_, fun s a hk => ⟨?_, ?_⟩⟩
  · rw [step_present_ok hs r hw, exec_ksa, next_inj] at h
    exact h ▸ keySchedule_keyed
  · rw [step_present_ok hs r hw, exec_ksar, drawnByte_sampled, next_inj] at h
    exact h ▸ keySchedule_keyed.trans byte_ne_zero_iff.symm
  · rw [step_present_ok hs r hw, exec_clr, next_inj] at h
    exact h ▸ rfl
  · rw [step_reset hin, next_inj] at h
    exact h ▸ rfl
  · exact ⟨_, exec_crypt_notKeyed hk a, raise_rsp _ _⟩
  · exact ⟨_, exec_peek_notKeyed hk a, raise_rsp _ _⟩

/-! ### The pins (R22) -/

/-- Settles O15: each pin is its field of PHASE or STATUS. -/
theorem statusPinsMirrorState : Obligations.StatusPinsMirrorState := by
  refine fun s => ⟨?_, ?_, ?_⟩
  · simp [busyPin]
  · rw [statusByte_keyedField, keyedPin]
  · rw [statusByte_errField, ne_eq, errBits_eq_zero]
    simp [errPin]

end Sys2Proof.Machine

/-! SUPPORT. Statements about permutation_memory: the swap and its two ports (20_memory.md R35, R46). -/

namespace Sys2Proof.Machine

/-! ### The swap (R46) -/

/-- A swap of a location with itself leaves every read as it was. -/
theorem Memory.read_swap_self (m : Memory) (u : Byte → Byte) (a c : Byte) :
    Memory.read (Memory.swap m u a a) u c = Memory.read m u c := by
  rw [Memory.read_swap]
  split
  · rw [‹c = a›]
  · rfl

/-- Settles O20: a swap is the reads and stored contents of `Memory.read_swap` and `Memory.stored_swap`. -/
theorem swapExchangesTwoEntries : Obligations.SwapExchangesTwoEntries := by
  refine fun m u a b => ⟨?_, ?_, fun c hca hcb => ?_, fun hab c => ?_, fun h => h.swap u a b⟩
  · rw [Memory.read_swap]
    split
    · rw [‹a = b›]
    · rw [if_pos rfl]
  · rw [Memory.read_swap, if_pos rfl]
  · rw [Memory.stored_swap, if_neg hcb, if_neg hca]
  · rw [hab, Memory.read_swap_self]

/-! ### The two ports (R32, R35) -/

@[simp] theorem idlePort_we : idlePort.we = false := rfl

/-- Ports that do not both write cannot clash. -/
theorem portsClash_eq_false_of_not_both {a b : PortSignals} (h : ¬ (a.we = true ∧ b.we = true)) :
    portsClash a b = false := by
  rw [← Bool.and_eq_true, Bool.not_eq_true] at h
  rw [portsClash, h]
  rfl

/-- Two writes clash unless one address takes one byte. -/
theorem portsClash_writePort {a b v w : Byte} (h : a = b → v = w) :
    portsClash (writePort a v) (writePort b w) = false := by
  by_cases hab : a = b
  · simp [portsClash, writePort, h hab]
  · simp [portsClash, writePort, hab]

theorem portSignals_ksaMix {q : Sequencer} (h : q.block.phase = .ksaMix) (c : Instr) :
    portSignals c q = stageSignals q.block.i q.block.j q.stage := by
  simp [portSignals, portOwner, ksaSignals, h]

theorem portSignals_prgaStep {q : Sequencer} (h : q.block.phase = .prgaStep) (c : Instr) :
    portSignals c q = stageSignals (prgaIndex q) q.block.j q.stage := by
  simp [portSignals, portOwner, prgaSignals, h]

/-- In phase ACCESS port B is idle. -/
@[simp] theorem accessSignals_snd (c : Instr) : (accessSignals c).2 = idlePort := by
  cases c <;> rfl

/-- Of the stages of an iteration or a step only the exchange writes on both ports. -/
theorem stageSignals_both_write {i j : Byte} {m : MicroStep} (hA : (stageSignals i j m).1.we = true)
    (hB : (stageSignals i j m).2.we = true) : ∃ x y, m = .exchange x y := by
  cases m with
  | readI => exact absurd hA Bool.false_ne_true
  | readJ x => exact absurd hA Bool.false_ne_true
  | exchange x y => exact ⟨x, y, rfl⟩
  | readT x y => exact absurd hB Bool.false_ne_true

/-- Both ports write in the exchange of a swap only, port A to S[I] and port B to S[J]. -/
theorem portSignals_both_write {c : Instr} {q : Sequencer} (hA : (portSignals c q).1.we = true)
    (hB : (portSignals c q).2.we = true) :
    ∃ x y, q.stage = .exchange x y ∧ portSignals c q = (writePort q.block.i y, writePort q.block.j x) := by
  cases hphase : q.block.phase with
  | idle => simp [portSignals, portOwner, hphase] at hA
  | ksaInit => simp [portSignals, portOwner, ksaSignals, hphase] at hB
  | ksaMix =>
    rw [portSignals_ksaMix hphase] at hA hB ⊢
    obtain ⟨x, y, hstage⟩ := stageSignals_both_write hA hB
    exact ⟨x, y, hstage, by rw [hstage]; rfl⟩
  | prgaStep =>
    rw [portSignals_prgaStep hphase] at hA hB ⊢
    obtain ⟨x, y, hstage⟩ := stageSignals_both_write hA hB
    exact ⟨x, y, hstage, by rw [prgaIndex, hstage]; rfl⟩
  | access => simp [portSignals, portOwner, hphase] at hB

/-! ### What the latches of a swap hold (R82, R92) -/

/-- Past its first stage an iteration or a step is in progress, and up to the swap's write x is S[I] and y is S[J]. -/
structure LatchesHold (q : Sequencer) : Prop where
  /-- Only a mixing iteration and a generation step have stages. -/
  staged : q.stage ≠ .readI → q.block.phase = .ksaMix ∨ q.block.phase = .prgaStep
  /-- After the first read. -/
  readJ : ∀ x, q.stage = .readJ x → x = readS q.block q.block.i
  /-- After both reads. -/
  exchange : ∀ x y, q.stage = .exchange x y → x = readS q.block q.block.i ∧ y = readS q.block q.block.j

/-- At the first stage nothing is latched. -/
theorem latchesHold_of_readI {q : Sequencer} (h : q.stage = .readI) : LatchesHold q where
  staged hne := absurd h hne
  readJ x hx := by rw [h] at hx; cases hx
  exchange x y hxy := by rw [h] at hxy; cases hxy

/-- Once the swap is written the latches speak of S no more. -/
theorem latchesHold_of_readT {q : Sequencer} {x y : Byte} (h : q.stage = .readT x y)
    (hphase : q.block.phase = .prgaStep) : LatchesHold q where
  staged _ := .inr hphase
  readJ x hx := by rw [h] at hx; cases hx
  exchange x y hxy := by rw [h] at hxy; cases hxy

/-- The first read latches S[I]. -/
theorem latchesHold_readJ {s : State} (h : s.phase = .ksaMix ∨ s.phase = .prgaStep) :
    LatchesHold ⟨s, .readJ (readS s s.i)⟩ where
  staged _ := h
  readJ x hx := by cases hx; rfl
  exchange x y hxy := by cases hxy

/-- The second read latches S[J] beside S[I]. -/
theorem LatchesHold.readJ_exchange {s : State} {x : Byte} (h : LatchesHold ⟨s, .readJ x⟩) :
    LatchesHold ⟨s, .exchange x (readS s s.j)⟩ where
  staged _ := h.staged (by simp)
  readJ x hx := by cases hx
  exchange x y hxy := by cases hxy; exact ⟨h.readJ _ rfl, rfl⟩

theorem tick_of_ksaMix {q : Sequencer} (h : q.block.phase = .ksaMix) (c : Instr) :
    tick c q = mixTick (portCycle c q) q := by
  simp [tick, h]

theorem tick_of_prgaStep {q : Sequencer} (h : q.block.phase = .prgaStep) (c : Instr) :
    tick c q = prgaTick c (portCycle c q) q := by
  simp [tick, h]

theorem LatchesHold.tick_ksaMix {c : Instr} {s : State} {m : MicroStep} (h : LatchesHold ⟨s, m⟩)
    (hphase : s.phase = .ksaMix) : LatchesHold (tick c ⟨s, m⟩) := by
  rw [tick_of_ksaMix hphase, portCycle, portSignals_ksaMix hphase]
  cases m with
  | readI => exact latchesHold_readJ (s := { s with j := _ }) (.inl hphase)
  | readJ x => exact h.readJ_exchange
  | exchange x y => exact latchesHold_of_readI rfl
  | readT x y => exact h

theorem LatchesHold.tick_prgaStep {c : Instr} {s : State} {m : MicroStep} (h : LatchesHold ⟨s, m⟩)
    (hphase : s.phase = .prgaStep) : LatchesHold (tick c ⟨s, m⟩) := by
  rw [tick_of_prgaStep hphase, portCycle, portSignals_prgaStep hphase]
  cases m with
  | readI => exact latchesHold_readJ (s := { s with i := _, j := _ }) (.inr hphase)
  | readJ x => exact h.readJ_exchange
  | exchange x y => exact latchesHold_of_readT rfl hphase
  | readT x y => exact latchesHold_of_readI rfl

/-- Every micro-operation keeps what the latches hold. -/
theorem LatchesHold.tick {q : Sequencer} (h : LatchesHold q) (c : Instr) : LatchesHold (tick c q) := by
  obtain ⟨s, m⟩ := q
  have unstaged : s.phase ≠ .ksaMix → s.phase ≠ .prgaStep → m = .readI := fun hmix hprga => by
    by_contra hm
    exact (h.staged hm).elim hmix hprga
  cases hphase : s.phase with
  | idle => rwa [tick_idle hphase]
  | ksaInit =>
    obtain rfl := unstaged (by simp [hphase]) (by simp [hphase])
    exact latchesHold_of_readI (by rw [tick_ksaInit hphase])
  | ksaMix => exact h.tick_ksaMix hphase
  | prgaStep => exact h.tick_prgaStep hphase
  | access =>
    obtain rfl := unstaged (by simp [hphase]) (by simp [hphase])
    exact latchesHold_of_readI (by simp [Machine.tick, hphase])

theorem latchesHold_ticks (c : Instr) (n : Nat) (s : State) : LatchesHold (ticks c n (startCommand c s)) := by
  induction n with
  | zero => exact latchesHold_of_readI rfl
  | succ n ih => rw [ticks_succ]; exact ih.tick c

/-- In a micro-operation in which both ports write, they write the second half of a swap of S[I] and S[J]. -/
theorem LatchesHold.portSignals_eq {c : Instr} {q : Sequencer} (h : LatchesHold q)
    (hA : (portSignals c q).1.we = true) (hB : (portSignals c q).2.we = true) :
    portSignals c q =
      (writePort q.block.i (readS q.block q.block.j), writePort q.block.j (readS q.block q.block.i)) := by
  obtain ⟨x, y, hstage, hports⟩ := portSignals_both_write hA hB
  obtain ⟨rfl, rfl⟩ := h.exchange x y hstage
  exact hports

theorem LatchesHold.portCycle_mem {c : Instr} {q : Sequencer} (h : LatchesHold q)
    (hA : (portSignals c q).1.we = true) (hB : (portSignals c q).2.we = true) :
    (portCycle c q).mem =
      Memory.swap q.block.pmem (Config.unwrittenByte q.block.freeIx) q.block.i q.block.j := by
  rw [portCycle, h.portSignals_eq hA hB]
  rfl

theorem LatchesHold.portsClash_eq_false {q : Sequencer} (h : LatchesHold q) (c : Instr) :
    portsClash (portSignals c q).1 (portSignals c q).2 = false := by
  by_cases hw : (portSignals c q).1.we = true ∧ (portSignals c q).2.we = true
  · rw [h.portSignals_eq hw.1 hw.2]
    exact portsClash_writePort (fun hij => by rw [hij])
  · exact portsClash_eq_false_of_not_both hw

/-- Settles O22: `LatchesHold` holds when a command starts and every micro-operation keeps it. -/
theorem bothPortsWriteOnlyInSwap : Obligations.BothPortsWriteOnlyInSwap := by
  intro c s n _
  have h := latchesHold_ticks c n s
  refine ⟨_, _, _, rfl, rfl, fun hA hB => ?_, h.portsClash_eq_false c⟩
  have hports := h.portSignals_eq hA hB
  have hmem := h.portCycle_mem hA hB
  refine ⟨congrArg Prod.fst hports, congrArg Prod.snd hports, hmem, fun hij x => ?_⟩
  rw [hmem, hij, Memory.read_swap_self, readS]

end Sys2Proof.Machine

/-! SUPPORT. Statements about the encoding: the opcode map, the reserved opcodes and the illegal words
(30_encoding.md R52, R54, R55). -/

namespace Sys2Proof

/-! ### A word from its fields (R51) -/

theorem opField_toNat (w : Word) : (opField w).toNat = w.toNat / 4096 := by
  have hw := w.isLt
  rw [opField, BitVec.extractLsb'_toNat, Nat.shiftRight_eq_div_pow]
  omega

theorem append_of_fields {w : Word} {o : BitVec 4} {l : BitVec 12} (ho : opField w = o) (hl : low12 w = l) :
    o ++ l = w := by
  rw [← ho, ← hl, opField_append_low12]

theorem wordB_of_fields {w : Word} {o : BitVec 4} {a : Byte} (ho : opField w = o) (hz : zero4 w = 0#4)
    (ha : argField w = a) : wordB o a = w := by
  rw [← ho, ← ha, wordB_fields w hz]

theorem low12_append (o : BitVec 4) (l : BitVec 12) : low12 (o ++ l) = l := by
  rw [low12, BitVec.extractLsb'_append_eq_of_add_le (by decide), BitVec.extractLsb'_eq_self]

theorem argField_wordB (o : BitVec 4) (a : Byte) : argField (wordB o a) = a := by
  rw [argField, wordB, BitVec.extractLsb'_append_eq_of_add_le (by decide), BitVec.extractLsb'_eq_self]

/-- RDREG's must-be-zero bits W[11:2] are ZERO4 and the upper bits of ARG. -/
theorem register_zeros_iff (w : Word) :
    w.extractLsb' 2 10 = 0#10 ↔ zero4 w = 0#4 ∧ (argField w).toNat < 4 := by
  simp only [← BitVec.toNat_inj, zero4, argField, BitVec.extractLsb'_toNat, BitVec.toNat_ofNat,
    Nat.shiftRight_eq_div_pow]
  omega

/-- A word that decodes is the word of its command. -/
theorem encode_of_decode {w : Word} {i : Instr} (h : decode w = .ok i) : encode i = w := by
  rcases decode_cases w with ⟨ho, hl, hd⟩ | ⟨ho, hd⟩ | ⟨ho, hl, hd⟩ | ⟨ho, hz, hd⟩ | ⟨ho, hz, hd⟩ |
    ⟨ho, hz, r, ha, hd⟩ | ⟨ho, hl, hd⟩ | ⟨-, -, hd⟩ | ⟨-, -, hd⟩ | ⟨-, -, -, hd⟩ | ⟨-, hd⟩ <;>
    rw [hd] at h <;> cases h
  · exact append_of_fields ho hl
  · exact append_of_fields ho rfl
  · exact append_of_fields ho hl
  · exact wordB_of_fields ho hz rfl
  · exact wordB_of_fields ho hz rfl
  · exact wordB_of_fields ho hz ha
  · exact append_of_fields ho hl

/-! ### The rows of the opcode map (R52) -/

/-- Every row looks at the whole opcode. -/
theorem opField_of_selects {w : Word} {r : OpcodeRow} (hr : r ∈ opcodeMap) (h : r.selects w = true) :
    opField w = opField r.pattern := by
  have hmask : ∀ r ∈ opcodeMap, opField r.mask = BitVec.allOnes 4 := by decide
  have hw : w &&& r.mask = r.pattern := beq_iff_eq.mp h
  rw [← hw, opField, opField, BitVec.extractLsb'_and]
  exact (hmask r hr ▸ BitVec.and_allOnes).symm

/-- The opcode tells the rows apart. -/
theorem eq_of_opField_pattern_eq {r₁ r₂ : OpcodeRow} (h₁ : r₁ ∈ opcodeMap) (h₂ : r₂ ∈ opcodeMap)
    (h : opField r₁.pattern = opField r₂.pattern) : r₁ = r₂ := by
  have hnodup : (opcodeMap.map fun r => opField r.pattern).Nodup := by decide
  exact List.inj_on_of_nodup_map hnodup h₁ h₂ h

theorem selectsItsRow (i : Instr) : Laws.SelectsItsRow.Statement i := by
  cases i with
  | nop => exact Laws.SelectsItsRow.nop
  | ksa k => exact Laws.SelectsItsRow.ksa k
  | ksar => exact Laws.SelectsItsRow.ksar
  | crypt d => exact Laws.SelectsItsRow.crypt d
  | peek a => exact Laws.SelectsItsRow.peek a
  | rdreg r => exact Laws.SelectsItsRow.rdreg r
  | clr => exact Laws.SelectsItsRow.clr

/-- A word that decodes selects the row of its command. -/
theorem selectedRow_of_decode {w : Word} {i : Instr} (h : decode w = .ok i) :
    (selectedRow w).map OpcodeRow.mnemonic = some i.mnemonic :=
  encode_of_decode h ▸ selectsItsRow i

theorem selectedRow_eq_none_iff {w : Word} :
    selectedRow w = none ↔ ∀ r ∈ opcodeMap, ¬ r.selects w = true :=
  List.find?_eq_none

/-! ### Illegal words (R54, R55) -/

/-- A word of a reserved opcode, or with a must-be-zero bit of its opcode's format set. -/
def IllegalFields (w : Word) : Prop :=
  (0x6 ≤ (opField w).toNat ∧ (opField w).toNat ≤ 0xE) ∨
  ((opField w = 0x0#4 ∨ opField w = 0x2#4 ∨ opField w = 0xF#4) ∧ low12 w ≠ 0#12) ∨
  ((opField w = 0x3#4 ∨ opField w = 0x4#4) ∧ zero4 w ≠ 0#4) ∨
  (opField w = 0x5#4 ∧ w.extractLsb' 2 10 ≠ 0#10)

/-- The decoder's reasons to reject a word are in the word's fields. -/
theorem illegalFields_of_decode_error {w : Word} {e : Reject} (h : decode w = .error e) : IllegalFields w := by
  rcases decode_cases w with ⟨-, -, hd⟩ | ⟨-, hd⟩ | ⟨-, -, hd⟩ | ⟨-, -, hd⟩ | ⟨-, -, hd⟩ | ⟨-, -, _, -, hd⟩ |
    ⟨-, -, hd⟩ | ⟨ho, hl, hd⟩ | ⟨ho, hz, hd⟩ | ⟨ho, -, ha, hd⟩ | ⟨ho, hd⟩ <;>
    rw [hd] at h <;> cases h
  · exact .inr (.inl ⟨ho, hl⟩)
  · rcases ho with ho | ho | ho
    · exact .inr (.inr (.inl ⟨.inl ho, hz⟩))
    · exact .inr (.inr (.inl ⟨.inr ho, hz⟩))
    · exact .inr (.inr (.inr ⟨ho, fun hr => hz ((register_zeros_iff w).mp hr).1⟩))
  · exact .inr (.inr (.inr ⟨ho, fun hr => by have := ((register_zeros_iff w).mp hr).2; omega⟩))
  · exact .inl ho

/-- The mask of a row covers every must-be-zero bit of the row's format. -/
theorem not_illegalFields_of_selects {w : Word} {r : OpcodeRow} (hr : r ∈ opcodeMap) (h : r.selects w = true) :
    ¬ IllegalFields w := by
  simp only [opcodeMap, List.mem_cons, List.not_mem_nil, or_false] at hr
  rcases hr with rfl | rfl | rfl | rfl | rfl | rfl | rfl
  · obtain ⟨ho, hl⟩ := (selects_maskZ w 0x0#4 "NOP").mp h
    simp [IllegalFields, ho, hl]
  · have ho := (selects_maskK w 0x1#4 "KSA").mp h
    simp [IllegalFields, ho]
  · obtain ⟨ho, hl⟩ := (selects_maskZ w 0x2#4 "KSAR").mp h
    simp [IllegalFields, ho, hl]
  · obtain ⟨ho, hz⟩ := (selects_maskB w 0x3#4 "CRYPT").mp h
    simp [IllegalFields, ho, hz]
  · obtain ⟨ho, hz⟩ := (selects_maskB w 0x4#4 "PEEK").mp h
    simp [IllegalFields, ho, hz]
  · obtain ⟨ho, hr⟩ := (selects_maskRegister w 0x5#4 "RDREG").mp h
    simp [IllegalFields, ho, (register_zeros_iff w).mpr hr]
  · obtain ⟨ho, hl⟩ := (selects_maskZ w 0xF#4 "CLR").mp h
    simp [IllegalFields, ho, hl]

theorem selectedRow_of_illegalFields {w : Word} (h : IllegalFields w) : selectedRow w = none :=
  selectedRow_eq_none_iff.mpr fun _ hr hw => not_illegalFields_of_selects hr hw h

/-- The decoder answers with the mnemonic of the selected row. -/
theorem decode_mnemonic (w : Word) :
    (decode w).toOption.map Instr.mnemonic = (selectedRow w).map OpcodeRow.mnemonic := by
  cases hw : decode w with
  | ok i => exact (selectedRow_of_decode hw).symm
  | error e => rw [selectedRow_of_illegalFields (illegalFields_of_decode_error hw)]; rfl

theorem decode_eq_none_iff_selectedRow {w : Word} : (decode w).toOption = none ↔ selectedRow w = none := by
  rw [← Option.map_eq_none_iff (f := Instr.mnemonic), decode_mnemonic, Option.map_eq_none_iff]

theorem decode_eq_none_iff_illegalFields {w : Word} : (decode w).toOption = none ↔ IllegalFields w := by
  refine ⟨fun h => ?_, fun h => decode_eq_none_iff_selectedRow.mpr (selectedRow_of_illegalFields h)⟩
  cases hw : decode w with
  | ok i => rw [hw] at h; cases h
  | error e => exact illegalFields_of_decode_error hw

/-- Settles O4: the opcode tells the rows apart, and the operands are those of the encoded command. -/
theorem decodeFollowsOpcodeMap : Obligations.DecodeFollowsOpcodeMap := by
  refine ⟨decode_mnemonic, fun w r₁ r₂ h₁ h₂ hw₁ hw₂ => ?_, fun w k hw => ?_, fun w d hw => ?_, fun w a hw => ?_,
    fun w r hw => ?_⟩
  · exact eq_of_opField_pattern_eq h₁ h₂ ((opField_of_selects h₁ hw₁).symm.trans (opField_of_selects h₂ hw₂))
  · exact encode_of_decode hw ▸ (low12_append 0x1#4 k).symm
  · exact encode_of_decode hw ▸ (argField_wordB 0x3#4 d).symm
  · exact encode_of_decode hw ▸ (argField_wordB 0x4#4 a).symm
  · rw [← encode_of_decode hw]
    cases r <;> rfl

/-! ### The reserved opcodes (R54) -/

theorem reserved_iff_toNat (w : Word) :
    (0x6 ≤ (opField w).toNat ∧ (opField w).toNat ≤ 0xE) ↔ (0x6000 ≤ w.toNat ∧ w.toNat ≤ 0xEFFF) := by
  rw [opField_toNat]
  omega

/-- As many words lie in a range as numbers do. -/
theorem card_words_between {lo hi : Nat} (hhi : hi < 65536) :
    (Finset.univ.filter (fun w : Word => lo ≤ w.toNat ∧ w.toNat ≤ hi)).card = hi + 1 - lo := by
  rw [← Nat.card_Icc]
  refine Finset.card_bij (fun w _ => w.toNat) (fun w hw => ?_) (fun _ _ _ _ h => BitVec.eq_of_toNat_eq h)
    (fun n hn => ?_)
  · simpa using hw
  · rw [Finset.mem_Icc] at hn
    have hmod : n % 65536 = n := Nat.mod_eq_of_lt (by omega)
    exact ⟨BitVec.ofNat 16 n, by simpa [hmod] using hn, by simp [hmod]⟩

/-- Settles O5: a reserved opcode is one of the illegal fields, and the words are counted by their range. -/
theorem reservedOpcodesSelectNothing : Obligations.ReservedOpcodesSelectNothing := by
  refine ⟨fun w hw => ?_, reserved_iff_toNat, ?_⟩
  · have hnone := selectedRow_of_illegalFields (.inl hw)
    exact ⟨hnone, decode_eq_none_iff_selectedRow.mpr hnone⟩
  · rw [Finset.filter_congr fun w _ => reserved_iff_toNat w, card_words_between (by decide)]

end Sys2Proof

namespace Sys2Proof.Machine

/-- An illegal word in full: ERR takes 3, the response is 0x0300, and the sampled `rnd` byte is gone. -/
theorem illegalCommand_sampled (s : State) (r : Byte) :
    illegalCommand { s with rnd := some r } =
      { s with rnd := none, err := .illegalCommand, rsp := some 0x0300#16 } := rfl

/-- Settles O7: the decoder rejects exactly the words with illegal fields, and the step raises the error. -/
theorem illegalWordOnlySetsErr : Obligations.IllegalWordOnlySetsErr := by
  refine ⟨fun w => decode_eq_none_iff_illegalFields, fun s w r hs hw => ?_⟩
  cases hd : decode w with
  | ok i => rw [hd] at hw; cases hw
  | error e => rw [step_present_error hs r hd, illegalCommand_sampled]

end Sys2Proof.Machine

/-! SUPPORT. Statements about the key schedule: what it leaves for a valid and for a refused key, and the key drawn
from the `rnd` port (40_ksa.md R72, R73, R77 to R84). -/

namespace Sys2Proof.Machine

/-! ### Memory contents as a function (20_memory.md R46) -/

/-- Every location of the memory holds its value of the function. -/
def Memory.Holds (m : Memory) (f : Perm) : Prop := ∀ a : Byte, Memory.stored m a = some (f a)

theorem Memory.Holds.read {m : Memory} {f : Perm} (h : Memory.Holds m f) (u : Byte → Byte) (a : Byte) :
    Memory.read m u a = f a :=
  Memory.read_of_stored u (h a)

/-- A swap in memory is the swap of the functions. -/
theorem Memory.Holds.swap {m : Memory} {f : Perm} (h : Memory.Holds m f) (u : Byte → Byte) (a b : Byte) :
    Memory.Holds (Memory.swap m u a b) (swapped f a b) := by
  intro c
  rw [Memory.stored_swap, h.read, h.read, h c]
  unfold swapped
  split_ifs with hcb hca
  · rw [← hca, hcb]
  · rfl
  · rfl
  · rfl

theorem holds_identityWrites (m : Memory) : Memory.Holds (identityWrites m) id := stored_identityWrites m

/-! ### The mixing loop is the source's algorithm (R70, R76, R78) -/

/-- T(i) lies below KEY (R75). -/
theorem tableEntry_lt {key : Byte} (h : key ≠ 0#8) (i : Nat) : tableEntry key i < key.toNat :=
  Nat.mod_lt i (byte_ne_zero_iff.mp h).1

/-- The new J of an iteration as 8-bit additions, whose carries are discarded (R80). -/
theorem mod256_mixingSum (j x key : Byte) (i : Nat) :
    mod256 (j.toNat + x.toNat + tableEntry key i) = j + x + BitVec.ofNat 8 (tableEntry key i) := by
  rw [mod256_add, mod256_add, mod256_toNat, mod256_toNat, mod256]

/-- `n` mixing iterations from the identity and J = 0 are `n` iterations of the source's algorithm. -/
theorem mixIterations_eq_ksaMath (u : Byte → Byte) (key : Byte) {m : Memory} (hm : Memory.Holds m id) (n : Nat) :
    ((List.range n).foldl (mixIteration u key) (m, 0#8)).2 = (ksaMath key.toNat n).2 ∧
      Memory.Holds ((List.range n).foldl (mixIteration u key) (m, 0#8)).1 (ksaMath key.toNat n).1 := by
  induction n with
  | zero => exact ⟨rfl, hm⟩
  | succ n ih =>
    obtain ⟨hj, hholds⟩ := ih
    simp only [mixIterations_succ, mixIteration, mod256_mixingSum, hholds.read, hj]
    exact ⟨rfl, hholds.swap u _ _⟩

theorem holds_mixLoop (u : Byte → Byte) (key : Byte) {m : Memory} (hm : Memory.Holds m id) :
    Memory.Holds (mixLoop u key m).1 (ksaPerm key.toNat) := by
  unfold mixLoop
  exact (mixIterations_eq_ksaMath u key hm 256).2

/-! ### A valid key (R77, R83, R84) -/

/-- `t` is what a key schedule with the valid key `k` leaves from `s` (R77, R84). -/
structure ScheduleCompleted (k : Byte) (s t : State) : Prop where
  i : t.i = 0#8
  j : t.j = 0#8
  keyed : t.keyed = true
  phase : t.phase = .idle
  key : t.key = k
  rsp : t.rsp = some (responseWord .ok k)
  err : t.err = s.err
  pmem : Memory.Holds t.pmem (ksaPerm k.toNat)

theorem keySchedule_completes {k : Nat} (h₁ : 1 ≤ k) (h₂ : k ≤ 255) (s : State) :
    ScheduleCompleted (mod256 k) s (keySchedule k s) := by
  rw [keySchedule_valid h₁ h₂]
  refine ⟨rfl, rfl, rfl, rfl, rfl, rfl, rfl, ?_⟩
  rw [completeSchedule_pmem, mixPhase_pmem, initPhase_pmem, initPhase_key]
  exact holds_mixLoop _ _ (holds_identityWrites s.pmem)

/-- The byte KSAR draws is a valid key unless it is 0 (R72). -/
theorem keySchedule_byte_completes {r : Byte} (h : r ≠ 0#8) (s : State) :
    ScheduleCompleted r s (keySchedule r.toNat s) := by
  obtain ⟨h₁, h₂⟩ := byte_ne_zero_iff.mp h
  simpa only [mod256_toNat] using keySchedule_completes h₁ h₂ s

/-- Two completed schedules with one key leave the same session, whatever they started from. -/
theorem ScheduleCompleted.sameSession {key : Byte} {s₁ s₂ t₁ t₂ : State} (h₁ : ScheduleCompleted key s₁ t₁)
    (h₂ : ScheduleCompleted key s₂ t₂) : SameSession t₁ t₂ where
  pmem a := (h₁.pmem a).trans (h₂.pmem a).symm
  i := h₁.i.trans h₂.i.symm
  j := h₁.j.trans h₂.j.symm
  key := h₁.key.trans h₂.key.symm
  keyed := h₁.keyed.trans h₂.keyed.symm

theorem isPermutation_keySchedule {k : Nat} (h₁ : 1 ≤ k) (h₂ : k ≤ 255) (s : State) :
    IsPermutation (keySchedule k s).pmem := by
  rw [keySchedule_valid h₁ h₂]
  exact (isPermutation_identityWrites s.pmem).mixLoop _ _

/-- Settles O24: every field is one of `keySchedule_completes`. -/
theorem ksaValidKeyCompletes : Obligations.KsaValidKeyCompletes := by
  intro s k h₁ h₂
  have h := keySchedule_completes h₁ h₂ s
  refine ⟨_, exec_ksa k s, h.i, h.j, h.keyed, h.phase, ?_, h.key.symm ▸ h.rsp, h.err⟩
  rw [h.key, toNat_mod256, Nat.mod_eq_of_lt (by omega)]

/-- Settles O28: given or drawn, both schedules complete with one key. -/
theorem keyScheduleDependsOnKeyAlone : Obligations.KeyScheduleDependsOnKeyAlone := by
  refine ⟨fun s₁ s₂ k h₁ h₂ => ?_, fun s₁ s₂ k h₁ h₂ hdrawn => ?_, fun s₁ s₂ hne hdrawn => ?_⟩
  · exact ⟨_, _, exec_ksa k s₁, exec_ksa k s₂,
      (keySchedule_completes h₁ h₂ s₁).sameSession (keySchedule_completes h₁ h₂ s₂)⟩
  · refine ⟨_, _, exec_ksa k s₁, exec_ksar s₂, ?_⟩
    rw [hdrawn]
    exact (keySchedule_completes h₁ h₂ s₁).sameSession (keySchedule_completes h₁ h₂ s₂)
  · refine ⟨_, _, exec_ksar s₁, exec_ksar s₂, ?_⟩
    rw [← hdrawn]
    exact (keySchedule_byte_completes hne s₁).sameSession (keySchedule_byte_completes hne s₂)

/-- Settles O29: the identity writes leave a permutation and every swap keeps it. -/
theorem keyScheduleLeavesPermutation : Obligations.KeyScheduleLeavesPermutation := by
  refine ⟨fun s k h₁ h₂ => ⟨_, exec_ksa k s, isPermutation_keySchedule h₁ h₂ s⟩, fun s hne => ?_⟩
  obtain ⟨h₁, h₂⟩ := byte_ne_zero_iff.mp hne
  exact ⟨_, exec_ksar s, isPermutation_keySchedule h₁ h₂ s⟩

/-- Settles O32: T(I) is below KEY, and reduction modulo 256 commutes with addition. -/
theorem mixingSumNeedsNoCarry : Obligations.MixingSumNeedsNoCarry := by
  intro j x key i hkey
  refine ⟨?_, mod256_mixingSum j x key i⟩
  have hT := tableEntry_lt hkey i
  have hj := j.isLt
  have hx := x.isLt
  have hkey' := key.isLt
  omega

/-! ### A refused key (R73, R81) -/

/-- `t` is what a command with a refused key leaves from `s` (R81). -/
structure ScheduleRefused (s t : State) : Prop where
  keyed : t.keyed = false
  key : t.key = 0#8
  i : t.i = 0#8
  j : t.j = 0#8
  err : t.err = .invalidArgument
  phase : t.phase = s.phase
  pmem : Unspecified t.pmem
  rsp : t.rsp = some 0x0100#16

theorem keySchedule_refuses {k : Nat} (h : k = 0 ∨ 256 ≤ k) (s : State) : ScheduleRefused s (keySchedule k s) := by
  rw [keySchedule_invalid h, raise_invalidArgument]
  exact ⟨rfl, rfl, rfl, rfl, rfl, rfl, Memory.stored_nil, rfl⟩

theorem keySchedule_drawnZero_refuses {s : State} (h : drawnByte s = 0#8) :
    ScheduleRefused s (keySchedule (drawnByte s).toNat s) :=
  keySchedule_refuses (.inl (by rw [h]; rfl)) s

/-- A block that is not keyed becomes keyed by a key schedule only (R18, R81). -/
theorem exec_stays_notKeyed {i : Instr} {s t : State} (hs : s.keyed = false) (hksa : ∀ k, i ≠ .ksa k)
    (hksar : i ≠ .ksar) (h : exec i s = .next t) : t.keyed = false := by
  by_cases hclr : i = .clr
  · subst hclr
    cases h
    rfl
  · rw [exec_keeps_keyed h hksa hksar hclr, hs]

/-- Settles O26: a refused key ends the session, and the session stays ended until a key schedule. -/
theorem ksaInvalidKeyEndsSession : Obligations.KsaInvalidKeyEndsSession := by
  refine ⟨fun s k hk => ?_, fun s hdrawn => ?_, fun s t i hs hksar hksa h => exec_stays_notKeyed hs hksa hksar h,
    fun s a hs => ⟨⟨_, exec_crypt_notKeyed hs a, rfl⟩, ⟨_, exec_peek_notKeyed hs a, rfl⟩⟩⟩
  · have h := keySchedule_refuses hk s
    exact ⟨_, exec_ksa k s, h.keyed, h.key, h.i, h.j, h.err, h.phase, h.pmem, h.rsp⟩
  · have h := keySchedule_drawnZero_refuses hdrawn
    exact ⟨_, exec_ksar s, h.keyed, h.key, h.i, h.j, h.err, h.phase, h.pmem, h.rsp⟩

/-! ### The drawn key (R72) -/

/-- KSAR is KSA of the byte it draws. -/
theorem exec_ksa_drawnByte (s : State) : exec (.ksa ((drawnByte s).setWidth 12)) s = exec .ksar s := by
  rw [exec_ksa, exec_ksar, BitVec.toNat_setWidth_of_le (by decide)]

/-- Settles O27: KSAR is KSA of the drawn byte, which completes or is refused, and acceptance samples that byte. -/
theorem ksarDrawsKeyFromPort : Obligations.KsarDrawsKeyFromPort := by
  refine ⟨fun s hne => ?_, fun s hzero => ?_, fun s r hs => ⟨drawnByte_sampled r s, ?_⟩, rfl⟩
  · have h := keySchedule_byte_completes hne s
    exact ⟨_, exec_ksar s, exec_ksa_drawnByte s, h.key, h.keyed, h.rsp, h.pmem⟩
  · have h := keySchedule_drawnZero_refuses hzero
    have hksa := exec_ksa_drawnByte s
    rw [hzero] at hksa
    exact ⟨_, exec_ksar s, hksa, h.rsp, h.keyed, h.err⟩
  · exact step_present_ok hs r rfl

end Sys2Proof.Machine

/-! SUPPORT. Statements about generation: one CRYPT, and streams of them after a key schedule (41_prga.md R92 to R99,
43_host_interface.md R136). -/

namespace Sys2Proof

/-! ### The words of KSA and CRYPT decode to their commands (30_encoding.md R52) -/

theorem opField_append (o : BitVec 4) (l : BitVec 12) : opField (o ++ l) = o := by
  rw [opField, BitVec.extractLsb'_append_eq_of_le (by decide), BitVec.extractLsb'_eq_self]

theorem opField_wordB (o : BitVec 4) (a : Byte) : opField (wordB o a) = o := by
  rw [opField, wordB, BitVec.extractLsb'_append_eq_of_le (by decide), BitVec.extractLsb'_append_eq_of_le (by decide),
    BitVec.extractLsb'_eq_self]

theorem zero4_wordB (o : BitVec 4) (a : Byte) : zero4 (wordB o a) = 0#4 := by
  rw [zero4, wordB, BitVec.extractLsb'_append_eq_of_le (by decide),
    BitVec.extractLsb'_append_eq_of_add_le (by decide), BitVec.extractLsb'_eq_self]

theorem decode_encode_ksa (k : BitVec 12) : decode (encode (.ksa k)) = .ok (.ksa k) := by
  have ho : opField (encode (.ksa k)) = 0x1#4 := opField_append _ k
  have hl : low12 (encode (.ksa k)) = k := low12_append _ k
  simp [decode, ho, hl]

theorem decode_encode_crypt (d : Byte) : decode (encode (.crypt d)) = .ok (.crypt d) := by
  have ho : opField (encode (.crypt d)) = 0x3#4 := opField_wordB _ d
  have hz : zero4 (encode (.crypt d)) = 0#4 := zero4_wordB _ d
  have ha : argField (encode (.crypt d)) = d := argField_wordB _ d
  simp [decode, decodeB, ho, hz, ha]

end Sys2Proof

namespace Sys2Proof.Machine

/-! ### One generation step (R92, R94, R95) -/

/-- The byte S[t] at t = S[I] + S[J] (R94): after a generation step, the keystream byte of that step. -/
def keystreamByte (s : State) : Byte := readS s (mod256 ((readS s s.i).toNat + (readS s s.j).toNat))

theorem prgaStep_i (d : Byte) (s : State) : (prgaStep d s).i = mod256 (s.i.toNat + 1) := rfl

/-- J takes the byte read before the swap. -/
theorem prgaStep_j (d : Byte) (s : State) :
    (prgaStep d s).j = mod256 (s.j.toNat + (readS s (prgaStep d s).i).toNat) := rfl

@[simp] theorem prgaStep_t (d : Byte) (s : State) : (prgaStep d s).t = s.t := rfl

/-- The output is the keystream byte of the state the step leaves, XOR the symbol (R95). -/
theorem prgaStep_rsp (d : Byte) (s : State) :
    (prgaStep d s).rsp = some (responseWord .ok (keystreamByte (prgaStep d s) ^^^ d)) := rfl

/-- A generation step reads no `rnd` byte and leaves none (R23). -/
theorem prgaStep_sampled (d r : Byte) (s : State) : prgaStep d { s with rnd := some r } = prgaStep d s := rfl

/-- The reads of S after a generation step are those of the swapped contents. -/
theorem readS_prgaStep (d : Byte) (s : State) (a : Byte) :
    readS (prgaStep d s) a =
      if a = (prgaStep d s).j then readS s (prgaStep d s).i
      else if a = (prgaStep d s).i then readS s (prgaStep d s).j else readS s a :=
  Memory.read_swap s.pmem (Config.unwrittenByte s.freeIx) (prgaStep d s).i (prgaStep d s).j a

theorem readS_prgaStep_i (d : Byte) (s : State) :
    readS (prgaStep d s) (prgaStep d s).i = readS s (prgaStep d s).j := by
  rw [readS_prgaStep]
  split
  · rw [← ‹(prgaStep d s).i = (prgaStep d s).j›]
  · rw [if_pos rfl]

theorem readS_prgaStep_j (d : Byte) (s : State) :
    readS (prgaStep d s) (prgaStep d s).j = readS s (prgaStep d s).i := by
  rw [readS_prgaStep, if_pos rfl]

/-- Only the two swapped locations of S change. -/
theorem stored_prgaStep_of_ne {d : Byte} {s : State} {a : Byte} (hi : a ≠ (prgaStep d s).i)
    (hj : a ≠ (prgaStep d s).j) : Memory.stored (prgaStep d s).pmem a = Memory.stored s.pmem a := by
  rw [prgaStep_pmem, Memory.stored_swap, if_neg hj, if_neg hi]

/-- Settles O34: every line of R92 is a lemma about `prgaStep`. -/
theorem cryptRunsOneStep : Obligations.CryptRunsOneStep := by
  intro s d hkeyed
  exact ⟨_, exec_crypt_keyed hkeyed d, prgaStep_i d s, prgaStep_j d s, readS_prgaStep_i d s, readS_prgaStep_j d s,
    fun _ => stored_prgaStep_of_ne, prgaStep_rsp d s, prgaStep_phase d s, prgaStep_key d s, prgaStep_keyed d s,
    prgaStep_err d s, prgaStep_t d s⟩

/-- Settles O35: a CRYPT refused with NOT_KEYED touches ERR and the ports only. -/
theorem cryptNotKeyedIsRefused : Obligations.CryptNotKeyedIsRefused := by
  intro s d hkeyed
  rw [exec_crypt_notKeyed hkeyed, raise_notKeyed]

/-- Settles O36: the output is the exclusive-or of two bytes, taken bit by bit. -/
theorem cryptXorsBitByBit : Obligations.CryptXorsBitByBit := by
  intro s d hkeyed
  exact ⟨_, _, exec_crypt_keyed hkeyed d, prgaStep_rsp d s, prgaStep_err d s, prgaStep_keyed d s,
    fun _ _ => BitVec.getLsbD_xor⟩

/-! ### A stream of CRYPT commands to a keyed block (43_host_interface.md R136) -/

/-- A legal word given to an idle block is answered by its command. -/
theorem transact_of_exec {i : Instr} {w a : Word} {r : Byte} {s t : State} (hidle : s.phase = .idle)
    (hw : decode w = .ok i) (h : exec i { s with rnd := some r } = .next t) (ha : t.rsp = some a) :
    transact w r s = some (t, a) :=
  transact_of_step ((step_present_ok hidle r hw).trans h) ha

theorem transact_crypt {s : State} (hidle : s.phase = .idle) (hkeyed : s.keyed = true) (r d : Byte) :
    transact (encode (.crypt d)) r s =
      some (prgaStep d s, responseWord .ok (keystreamByte (prgaStep d s) ^^^ d)) :=
  transact_of_exec hidle (decode_encode_crypt d)
    ((exec_crypt_keyed (s := { s with rnd := some r }) hkeyed d).trans (by rw [prgaStep_sampled])) (prgaStep_rsp d s)

/-- The state a keyed block is in after the CRYPT commands of a stream. -/
def streamState : List Byte → State → State
  | [], s => s
  | d :: ds, s => streamState ds (prgaStep d s)

/-- The bytes a keyed block answers to the CRYPT commands of a stream. -/
def streamOutput : List Byte → State → List Byte
  | [], _ => []
  | d :: ds, s => (keystreamByte (prgaStep d s) ^^^ d) :: streamOutput ds (prgaStep d s)

/-- What the host sees of a stream given to a keyed block. -/
theorem runCommands_streamWords {s : State} (hidle : s.phase = .idle) (hkeyed : s.keyed = true) (r : Byte)
    (ds : List Byte) :
    runCommands (streamWords r ds) s = some (streamState ds s, (streamOutput ds s).map (responseWord .ok)) := by
  induction ds generalizing s with
  | nil => rfl
  | cons d ds ih =>
    rw [streamWords_cons, runCommands_cons (transact_crypt hidle hkeyed r d),
      ih (prgaStep_phase d s) ((prgaStep_keyed d s).trans hkeyed)]
    rfl

theorem length_streamOutput (ds : List Byte) (s : State) : (streamOutput ds s).length = ds.length := by
  induction ds generalizing s with
  | nil => rfl
  | cons d ds ih => exact congrArg Nat.succ (ih (prgaStep d s))

/-- Each symbol moves the cursor by one (R93, R97). -/
theorem streamState_i_toNat (ds : List Byte) (s : State) :
    (streamState ds s).i.toNat = (s.i.toNat + ds.length) % 256 := by
  induction ds generalizing s with
  | nil => exact (Nat.mod_eq_of_lt s.i.isLt).symm
  | cons d ds ih =>
    rw [streamState, ih, prgaStep_i, toNat_mod256, List.length_cons]
    omega

/-- Settles O55: the cursor starts at 0, and each symbol moves it by one. -/
theorem cursorFollowsStreamPosition : Obligations.CursorFollowsStreamPosition := by
  intro s r ds hidle hkeyed hi
  refine ⟨_, _, runCommands_streamWords hidle hkeyed r ds, ?_, ?_⟩
  · rw [List.length_map, length_streamOutput]
  · rw [streamState_i_toNat, hi, BitVec.toNat_ofNat, Nat.zero_mod, Nat.zero_add]

/-! ### The source's state at a stream position (R90, R93) -/

/-- The source's (S, j) before stream position `n`, with key `k`. -/
def sourceState (k : Nat) : Nat → Perm × Byte
  | 0 => (ksaPerm k, 0#8)
  | n + 1 => (prgaMath n (sourceState k n)).1

/-- The block is in a session with key `k`, after `n` symbols, with the source's state. -/
structure AtPosition (k : Byte) (n : Nat) (s : State) : Prop where
  idle : s.phase = .idle
  keyed : s.keyed = true
  key : s.key = k
  i : s.i = mod256 n
  j : s.j = (sourceState k.toNat n).2
  pmem : Memory.Holds s.pmem (sourceState k.toNat n).1

theorem ScheduleCompleted.atPosition {k : Byte} {s t : State} (h : ScheduleCompleted k s t) : AtPosition k 0 t :=
  ⟨h.phase, h.keyed, h.key, h.i, h.j, h.pmem⟩

/-- The cursor and S at a position are the key's and the position's alone (R99). -/
theorem AtPosition.sameSession {k : Byte} {n : Nat} {s t : State} (hs : AtPosition k n s) (ht : AtPosition k n t) :
    SameSession s t where
  pmem a := (hs.pmem a).trans (ht.pmem a).symm
  i := hs.i.trans ht.i.symm
  j := hs.j.trans ht.j.symm
  key := hs.key.trans ht.key.symm
  keyed := hs.keyed.trans ht.keyed.symm

theorem AtPosition.readS {k : Byte} {n : Nat} {s : State} (h : AtPosition k n s) (a : Byte) :
    readS s a = (sourceState k.toNat n).1 a :=
  h.pmem.read _ a

/-- A generation step is the source's at this position. -/
theorem AtPosition.prgaStep {k : Byte} {n : Nat} {s : State} (h : AtPosition k n s) (d : Byte) :
    AtPosition k (n + 1) (prgaStep d s) := by
  have hi : (Machine.prgaStep d s).i = BitVec.ofNat 8 (n + 1) := by
    rw [prgaStep_i, mod256_add, mod256_toNat, h.i, ← mod256_add, mod256]
  have hj : (Machine.prgaStep d s).j = (sourceState k.toNat (n + 1)).2 := by
    rw [prgaStep_j, mod256_add, mod256_toNat, mod256_toNat, h.readS, hi, h.j]
    rfl
  refine ⟨prgaStep_phase d s, (prgaStep_keyed d s).trans h.keyed, (prgaStep_key d s).trans h.key, hi, hj, ?_⟩
  rw [prgaStep_pmem, hi, hj]
  exact h.pmem.swap _ _ _

/-- The keystream byte after `n + 1` symbols is the source's for position `n`. -/
theorem AtPosition.keystreamByte {k : Byte} {n : Nat} {s : State} (h : AtPosition k (n + 1) s) :
    keystreamByte s = (prgaMath n (sourceState k.toNat n)).2 := by
  rw [Machine.keystreamByte, mod256_add, mod256_toNat, mod256_toNat, h.readS, h.readS, h.readS, h.i, h.j]
  rfl

theorem AtPosition.streamState {k : Byte} {n : Nat} {s : State} (h : AtPosition k n s) (ds : List Byte) :
    AtPosition k (n + ds.length) (streamState ds s) := by
  induction ds generalizing n s with
  | nil => exact h
  | cons d ds ih =>
    rw [List.length_cons, ← Nat.add_assoc, Nat.add_right_comm]
    exact ih (h.prgaStep d)

/-- Each symbol is answered XOR the source's keystream byte of its position. -/
theorem AtPosition.streamOutput {k : Byte} {n : Nat} {s : State} (h : AtPosition k n s) (ds : List Byte) :
    streamOutput ds s =
      List.zipWith (fun a d => a ^^^ d) (keystreamFrom n ds.length (sourceState k.toNat n)) ds := by
  induction ds generalizing n s with
  | nil => rfl
  | cons d ds ih =>
    have hnext := h.prgaStep d
    rw [Machine.streamOutput, hnext.keystreamByte, ih hnext]
    rfl

/-! ### The call with an explicit key (R136, R138) -/

theorem transact_ksa {s : State} {k : BitVec 12} (hidle : s.phase = .idle) (h₁ : 1 ≤ k.toNat) (h₂ : k.toNat ≤ 255)
    (r : Byte) : ∃ t, transact (encode (.ksa k)) r s = some (t, responseWord .ok (k.setWidth 8)) ∧
      AtPosition (k.setWidth 8) 0 t := by
  have hkey : mod256 k.toNat = k.setWidth 8 := BitVec.ofNat_toNat 8 k
  have h := hkey ▸ keySchedule_completes h₁ h₂ { s with rnd := some r }
  exact ⟨_, transact_of_exec hidle (decode_encode_ksa k) (exec_ksa k _) h.rsp, h.atPosition⟩

/-- The call answers the key, then the source's rc4 of the stream, and leaves the source's state (R90, R136). -/
theorem runCommands_callWithKey {s : State} {k : BitVec 12} (hidle : s.phase = .idle) (h₁ : 1 ≤ k.toNat)
    (h₂ : k.toNat ≤ 255) (r : Byte) (ds : List Byte) :
    ∃ t, runCommands (callWithKey k r ds) s =
        some (t, responseWord .ok (k.setWidth 8) :: (rc4Math k.toNat ds).map (responseWord .ok)) ∧
      AtPosition (k.setWidth 8) ds.length t := by
  obtain ⟨u, hksa, hu⟩ := transact_ksa hidle h₁ h₂ r
  have hkey : (k.setWidth 8).toNat = k.toNat := by
    rw [BitVec.toNat_setWidth]
    exact Nat.mod_eq_of_lt (by omega)
  have hout : streamOutput ds u = rc4Math k.toNat ds := by
    rw [hu.streamOutput, hkey]
    rfl
  have ht := hu.streamState ds
  rw [Nat.zero_add] at ht
  refine ⟨_, ?_, ht⟩
  rw [callWithKey, runCommands_cons hksa, runCommands_streamWords hu.idle hu.keyed, hout]
  rfl

/-! ### The source's rc4 (R98, R99) -/

theorem length_keystreamFrom (step n : Nat) (p : Perm × Byte) : (keystreamFrom step n p).length = n := by
  induction n generalizing step p with
  | zero => rfl
  | succ n ih => exact congrArg Nat.succ (ih _ _)

theorem length_rc4Math (k : Nat) (ds : List Byte) : (rc4Math k ds).length = ds.length := by
  rw [rc4Math, List.length_zipWith, length_keystreamFrom, Nat.min_self]

/-- The same keystream applied twice gives the stream back. -/
theorem zipWith_xor_zipWith_xor {ks ds : List Byte} (h : ks.length = ds.length) :
    List.zipWith (fun a d => a ^^^ d) ks (List.zipWith (fun a d => a ^^^ d) ks ds) = ds := by
  induction ks generalizing ds with
  | nil => exact (List.eq_nil_of_length_eq_zero h.symm).symm
  | cons a ks ih =>
    obtain ⟨d, ds, rfl⟩ := List.exists_cons_of_length_eq_add_one h.symm
    have hd : a ^^^ (a ^^^ d) = d := by rw [← BitVec.xor_assoc, BitVec.xor_self, BitVec.zero_xor]
    simp only [List.zipWith_cons_cons, hd, ih (Nat.succ.inj h)]

theorem rc4Math_rc4Math (k : Nat) (ds : List Byte) : rc4Math k (rc4Math k ds) = ds := by
  conv_lhs => rw [rc4Math, length_rc4Math, rc4Math]
  exact zipWith_xor_zipWith_xor (length_keystreamFrom 0 ds.length _)

/-- Settles O59: both calls answer the source's rc4, which is an involution. -/
theorem callIsInvolution : Obligations.CallIsInvolution := by
  intro s₁ s₂ k r₁ r₂ ds hidle₁ hidle₂ h₁ h₂
  obtain ⟨t₁, hrun₁, -⟩ := runCommands_callWithKey hidle₁ h₁ h₂ r₁ ds
  obtain ⟨t₂, hrun₂, -⟩ := runCommands_callWithKey hidle₂ h₁ h₂ r₂ (rc4Math k.toNat ds)
  rw [rc4Math_rc4Math] at hrun₂
  exact ⟨t₁, t₂, rc4Math k.toNat ds, length_rc4Math k.toNat ds, hrun₁, hrun₂⟩

/-- Settles O60: the keystream and the state left are the source's at the stream's length, whatever its symbols. -/
theorem stateIndependentOfSymbols : Obligations.StateIndependentOfSymbols := by
  intro s₁ s₂ k r₁ r₂ ds₁ ds₂ hidle₁ hidle₂ h₁ h₂ hlen
  obtain ⟨t₁, hrun₁, ht₁⟩ := runCommands_callWithKey hidle₁ h₁ h₂ r₁ ds₁
  obtain ⟨t₂, hrun₂, ht₂⟩ := runCommands_callWithKey hidle₂ h₁ h₂ r₂ ds₂
  rw [rc4Math, List.map_zipWith] at hrun₁ hrun₂
  rw [← hlen] at hrun₂ ht₂
  exact ⟨t₁, t₂, keystreamFrom 0 ds₁.length (ksaPerm k.toNat, 0#8), length_keystreamFrom 0 ds₁.length _,
    hrun₁, hrun₂, ht₁.sameSession ht₂⟩

end Sys2Proof.Machine

/-! SUPPORT. Statements about inspection and control: NOP, PEEK, RDREG and CLR (42_access_control.md R110 to R115). -/

namespace Sys2Proof

/-! ### Words as numbers (30_encoding.md R51, R52, R55) -/

theorem low12_toNat (w : Word) : (low12 w).toNat = w.toNat % 4096 := by
  rw [low12, BitVec.extractLsb'_toNat, Nat.shiftRight_zero]

theorem wordB_toNat (o : BitVec 4) (a : Byte) : (wordB o a).toNat = 4096 * o.toNat + a.toNat := by
  rw [wordB, BitVec.toNat_append, ← Nat.shiftLeft_add_eq_or_of_lt a.isLt, BitVec.toNat_append, BitVec.toNat_ofNat,
    Nat.zero_mod, Nat.or_zero, Nat.shiftLeft_eq, Nat.shiftLeft_eq]
  omega

theorem encode_peek_toNat (a : Byte) : (encode (.peek a)).toNat = 0x4000 + a.toNat := wordB_toNat 0x4#4 a

theorem encode_rdreg_toNat (r : CtrlReg) : (encode (.rdreg r)).toNat = 0x5000 + (ctrlRegNumber r).toNat :=
  wordB_toNat 0x5#4 (ctrlRegNumber r)

/-- The only command of an opcode of format Z is the word whose low twelve bits are 0. -/
theorem decode_formatZ_eq_none {w : Word} {o : BitVec 4} (ho : o = 0x0#4 ∨ o = 0x2#4 ∨ o = 0xF#4)
    (hlo : 4096 * o.toNat < w.toNat) (hhi : w.toNat < 4096 * o.toNat + 4096) : (decode w).toOption = none := by
  have hop : opField w = o := BitVec.eq_of_toNat_eq (by rw [opField_toNat]; omega)
  have hzero : low12 w ≠ 0#12 := fun h => by
    have hl := low12_toNat w
    rw [h, BitVec.toNat_ofNat] at hl
    omega
  exact decode_eq_none_iff_illegalFields.mpr (.inr (.inl ⟨hop.symm ▸ ho, hzero⟩))

/-- RDREG has four registers: its other words are no command (R17). -/
theorem decode_rdreg_eq_none {w : Word} (hlo : 0x5004 ≤ w.toNat) (hhi : w.toNat ≤ 0x50FF) :
    (decode w).toOption = none := by
  have hop : opField w = 0x5#4 := BitVec.eq_of_toNat_eq (by rw [opField_toNat, BitVec.toNat_ofNat]; omega)
  have hzeros : w.extractLsb' 2 10 ≠ 0#10 := fun h => by
    have hr := congrArg BitVec.toNat h
    rw [BitVec.extractLsb'_toNat, Nat.shiftRight_eq_div_pow, BitVec.toNat_ofNat] at hr
    omega
  exact decode_eq_none_iff_illegalFields.mpr (.inr (.inr (.inr ⟨hop, hzeros⟩)))

end Sys2Proof

namespace Sys2Proof.Machine

/-! ### NOP (R110) -/

/-- Settles O41: NOP only answers, and its opcode has no other word. -/
theorem nopChangesNothing : Obligations.NopChangesNothing :=
  ⟨exec_nop, rfl, fun _ hlo hhi => decode_formatZ_eq_none (.inl rfl) hlo (Nat.lt_succ_of_le hhi)⟩

/-! ### PEEK (R111) -/

/-- PEEK of a keyed block answers the byte read. -/
theorem exec_peek_answers_iff {s : State} (hkeyed : s.keyed = true) (a v : Byte) :
    (∃ t, exec (.peek a) s = .next t ∧ t.rsp = some (responseWord .ok v)) ↔ readS s a = v := by
  simp [exec_peek_keyed hkeyed]

/-- In a permutation every location holds a value, so a read gives the byte stored there. -/
theorem readS_eq_iff_stored {s : State} (hperm : IsPermutation s.pmem) (a v : Byte) :
    readS s a = v ↔ Memory.stored s.pmem a = some v := by
  rw [Memory.stored_eq_read (Config.unwrittenByte s.freeIx) (hperm.1 a), Option.some_inj, readS]

/-- Settles O42: PEEK answers the byte read or raises NOT_KEYED, and of a permutation each byte is read once. -/
theorem peekReadsOneEntry : Obligations.PeekReadsOneEntry := by
  refine ⟨fun s a hkeyed => exec_peek_keyed hkeyed a, fun s a v hkeyed hv => ?_, fun s hkeyed hperm v => ?_,
    fun s a hkeyed => ?_, encode_peek_toNat⟩
  · exact (exec_peek_answers_iff hkeyed a v).mpr (Memory.read_of_stored _ hv)
  · simp only [exec_peek_answers_iff hkeyed, readS_eq_iff_stored hperm]
    exact hperm.2 v
  · rw [exec_peek_notKeyed hkeyed, raise_notKeyed]

/-! ### RDREG (R112) -/

/-- Settles O43: a register is read as it stands, and R25 makes KEY, I and J 0 while the block is not keyed. -/
theorem rdregReadsRegister : Obligations.RdregReadsRegister := by
  refine ⟨fun s r => exec_rdreg r s, fun s => ⟨statusByte_toNat s, rfl, rfl, rfl⟩, fun s hs hkeyed => ?_,
    encode_rdreg_toNat, fun w => decode_rdreg_eq_none⟩
  exact ⟨hs.keyed_key.mp hkeyed, hs.cursor hkeyed⟩

/-! ### CLR (R114) -/

/-- With the registers at their reset values every one of them reads 0. -/
theorem readCtrl_eq_zero {s : State} (hkeyed : s.keyed = false) (herr : s.err = .ok) (hkey : s.key = 0#8)
    (hi : s.i = 0#8) (hj : s.j = 0#8) (r : CtrlReg) : readCtrl r s = 0#8 := by
  cases r with
  | status => exact BitVec.eq_of_toNat_eq (by rw [readCtrl, statusByte_toNat, herr, hkeyed]; rfl)
  | key => exact hkey
  | i => exact hi
  | j => exact hj

/-- Only CLR takes ERR back to 0: a command that fails leaves its code there, any other leaves ERR. -/
theorem eq_clr_of_clears_err {i : Instr} {s t : State} (h : exec i s = .next t) (hs : s.err ≠ .ok)
    (ht : t.err = .ok) : i = .clr := by
  rcases exec_err_cases h with ⟨e, rfl⟩ | ⟨d, -, herr⟩
  · exact absurd ((raise_err e s).symm.trans ht) (errorCode_ne_ok e)
  · by_contra hclr
    rw [if_neg hclr] at herr
    exact hs (herr.symm.trans ht)

/-- Settles O44: each field is one of `exec_clr`; the registers read their reset values, and KEYED = 0 refuses
CRYPT. -/
theorem clrReturnsToResetState : Obligations.ClrReturnsToResetState := by
  refine ⟨fun s => ⟨_, exec_clr s, rfl, rfl, rfl, rfl, rfl, Memory.stored_nil, Memory.stored_nil, rfl, rfl, rfl, rfl,
    readCtrl_eq_zero rfl rfl rfl rfl rfl, fun d => ⟨_, exec_crypt_notKeyed rfl d, raise_rsp _ _⟩⟩,
    fun i s t => eq_clr_of_clears_err, rfl, fun w hlo hhi => ?_⟩
  exact decode_formatZ_eq_none (o := 0xF#4) (.inr (.inr rfl)) hlo (Nat.lt_succ_of_le hhi)

/-! ### NOP, PEEK and RDREG have no side effects (R115) -/

theorem respond_withoutPorts (c : ResultCode) (d : Byte) (s : State) :
    (respond c d s).withoutPorts = s.withoutPorts := rfl

/-- A read that ends in an idle block, as it began, has changed nothing but the ports. -/
theorem endAccess_withoutPorts {s : State} (hidle : s.phase = .idle) (v : Byte) :
    (endAccess v s).withoutPorts = s.withoutPorts := by
  rw [endAccess, respond_withoutPorts, ← hidle]

theorem endAccess_endAccess (v w : Byte) (s : State) : endAccess v (endAccess w s) = endAccess v s := rfl

theorem readS_endAccess (v a : Byte) (s : State) : readS (endAccess v s) a = readS s a := rfl

theorem readCtrl_endAccess (v : Byte) (r : CtrlReg) (s : State) : readCtrl r (endAccess v s) = readCtrl r s := by
  cases r <;> rfl

theorem exec_peek_repeats {s : State} (hkeyed : s.keyed = true) (a : Byte) :
    exec (.peek a) (endAccess (readS s a) s) = .next (endAccess (readS s a) s) := by
  rw [exec_peek_keyed (s := endAccess _ s) hkeyed, readS_endAccess, endAccess_endAccess]

theorem exec_rdreg_repeats (r : CtrlReg) (s : State) :
    exec (.rdreg r) (endAccess (readCtrl r s) s) = .next (endAccess (readCtrl r s) s) := by
  rw [exec_rdreg, readCtrl_endAccess, endAccess_endAccess]

/-- Settles O45: a command that answers code 0 changes the ports only and repeats, and only PEEK can fail. -/
theorem inspectionHasNoSideEffects : Obligations.InspectionHasNoSideEffects := by
  rintro s i hidle (rfl | ⟨a, rfl⟩ | ⟨r, rfl⟩)
  · exact ⟨_, .ok, 0#8, exec_nop s, rfl, fun _ => ⟨respond_withoutPorts _ _ s, exec_nop _⟩, fun h => absurd rfl h⟩
  · rcases Bool.eq_false_or_eq_true s.keyed with hkeyed | hkeyed
    · exact ⟨_, .ok, readS s a, exec_peek_keyed hkeyed a, rfl,
        fun _ => ⟨endAccess_withoutPorts hidle _, exec_peek_repeats hkeyed a⟩, fun h => absurd rfl h⟩
    · exact ⟨_, .notKeyed, 0#8, exec_peek_notKeyed hkeyed a, raise_rsp _ s, fun h => absurd h (by decide),
        fun _ => ⟨rfl, ⟨a, rfl⟩, rfl⟩⟩
  · exact ⟨_, .ok, readCtrl r s, exec_rdreg r s, rfl,
      fun _ => ⟨endAccess_withoutPorts hidle _, exec_rdreg_repeats r s⟩, fun h => absurd rfl h⟩

end Sys2Proof.Machine

/-! SUPPORT. The statement about the host interface: a reset abandons a command, nothing else leaves one unanswered
(43_host_interface.md R141). -/

namespace Sys2Proof.Machine

/-- Failing or not, a command answers with a response. -/
theorem exec_rsp_isSome {i : Instr} {s t : State} (h : exec i s = .next t) : t.rsp.isSome := by
  rcases exec_err_cases h with ⟨e, rfl⟩ | ⟨d, hrsp, -⟩
  · rw [raise_rsp]; rfl
  · rw [hrsp]; rfl

/-- A word given to an idle block is answered, legal or not. -/
theorem step_present_rsp_isSome {s t : State} {w : Word} {r : Byte} (hs : s.phase = .idle)
    (h : step (s.present w r) = .next t) : t.rsp.isSome := by
  rcases step_present_cases hs h with ⟨i, -, hexec⟩ | ⟨e, -, rfl⟩
  · exact exec_rsp_isSome hexec
  · rw [illegalCommand, raise_rsp]; rfl

/-- STATUS reads 0x00 after a reset (R24). -/
theorem statusByte_afterReset (rest : List HostEvent) (s : State) : statusByte (s.afterReset rest) = 0x00#8 :=
  readCtrl_eq_zero rfl rfl rfl rfl rfl .status

/-- Settles O13: `step_reset` takes the reset in every phase, and every word an idle block accepts is answered. -/
theorem resetAbandonsCommand : Obligations.ResetAbandonsCommand := by
  refine ⟨fun s rest hin => ?_, fun s w r hidle => ?_⟩
  · exact ⟨s.afterReset rest, step_reset hin, rfl, statusByte_afterReset rest s, rfl, rfl, rfl, Memory.stored_nil,
      Memory.stored_nil, rfl, rfl⟩
  · obtain ⟨t, ht⟩ := step_next (s.present w r)
    exact ⟨t, ht, step_present_rsp_isSome hidle ht⟩

end Sys2Proof.Machine

/-! SUPPORT. Statements about errors: which check a failing command fails first, and all that it then does
(60_exceptions.md R156, R157). -/

namespace Sys2Proof.Machine

/-! ### The order of the checks (R156) -/

/-- Settles O46: a rejected word reaches no command, CRYPT and PEEK see KEYED first, and a key schedule checks its key
in every state. -/
theorem checksHavePriority : Obligations.ChecksHavePriority := by
  refine fun s w r hs => ⟨fun hw => ?_, ?_, ?_⟩
  · exact ⟨_, illegalWordOnlySetsErr.2 s w r hs hw, rfl⟩
  · rintro hkeyed ⟨a, hw | hw⟩
    · exact ⟨_, (step_present_ok hs r hw).trans (exec_crypt_notKeyed hkeyed a), raise_rsp _ _⟩
    · exact ⟨_, (step_present_ok hs r hw).trans (exec_peek_notKeyed hkeyed a), raise_rsp _ _⟩
  · rintro (⟨k, hw, hk⟩ | ⟨hw, hr⟩)
    · exact ⟨_, (step_present_ok hs r hw).trans (exec_ksa k _), (keySchedule_refuses hk _).rsp⟩
    · have hdrawn := (drawnByte_sampled r s).trans hr
      exact ⟨_, (step_present_ok hs r hw).trans (exec_ksar _), (keySchedule_drawnZero_refuses hdrawn).rsp⟩

/-! ### What a failing command does (R157) -/

@[simp] theorem raise_phase (e : ErrorKind) (s : State) : (raise e s).phase = s.phase := by
  cases e <;> rfl

/-- An error other than INVALID_ARGUMENT changes ERR and the ports only. -/
theorem raise_of_ne_invalidArgument {e : ErrorKind} (h : errorCode e ≠ .invalidArgument) (s : State) :
    raise e s = { s with rnd := none, err := errorCode e, rsp := (raise e s).rsp } := by
  cases e with
  | invalidArgument => exact absurd rfl h
  | notKeyed => rfl
  | illegalCommand => rfl

theorem errorCode_eq_invalidArgument {e : ErrorKind} : errorCode e = .invalidArgument ↔ e = .invalidArgument := by
  cases e <;> decide

/-- The response of a raised error is its code, with no data (R58). -/
theorem raise_rsp_eq_iff {e : ErrorKind} {s : State} {c : ResultCode} {d : Byte} :
    (raise e s).rsp = some (responseWord c d) ↔ errorCode e = c ∧ 0#8 = d := by
  rw [raise_rsp, Option.some_inj, responseWord_inj]

/-- A word whose answer has a code other than 0, legal or not, has raised the error of that code and done nothing
else. -/
theorem step_present_eq_raise_of_rsp {s t : State} {w : Word} {r : Byte} {c : ResultCode} {d : Byte}
    (hs : s.phase = .idle) (h : step (s.present w r) = .next t) (hrsp : t.rsp = some (responseWord c d))
    (hc : c ≠ .ok) : ∃ e, t = raise e { s with rnd := some r } ∧ errorCode e = c ∧ 0#8 = d := by
  rcases step_present_cases hs h with ⟨i, -, hexec⟩ | ⟨_, -, rfl⟩
  · rcases exec_err_cases hexec with ⟨e, rfl⟩ | ⟨d', hok, -⟩
    · exact ⟨e, rfl, raise_rsp_eq_iff.mp hrsp⟩
    · rw [hok, Option.some_inj, responseWord_inj] at hrsp
      exact absurd hrsp.1.symm hc
  · exact ⟨.illegalCommand, rfl, raise_rsp_eq_iff.mp hrsp⟩

/-- Only a key schedule checks an argument: the other commands answer code 0, or NOT_KEYED. -/
theorem eq_schedule_of_invalidArgument {i : Instr} {s t : State} {d : Byte} (h : exec i s = .next t)
    (hrsp : t.rsp = some (responseWord .invalidArgument d)) : (∃ k, i = .ksa k) ∨ i = .ksar := by
  cases i with
  | nop => cases h; simp at hrsp
  | ksa k => exact .inl ⟨k, rfl⟩
  | ksar => exact .inr rfl
  | crypt a =>
    rw [exec_crypt, next_inj] at h
    subst h
    split at hrsp
    · simp [prgaStep_rsp] at hrsp
    · simp [errorCode] at hrsp
  | peek a =>
    rw [exec_peek, next_inj] at h
    subst h
    split at hrsp
    · simp at hrsp
    · simp [errorCode] at hrsp
  | rdreg x => cases h; simp at hrsp
  | clr => cases h; simp at hrsp

/-- A word whose answer is INVALID_ARGUMENT is a KSA or the KSAR. -/
theorem decode_schedule_of_invalidArgument {s t : State} {w : Word} {r d : Byte} (hs : s.phase = .idle)
    (h : step (s.present w r) = .next t) (hrsp : t.rsp = some (responseWord .invalidArgument d)) :
    (∃ k, decode w = .ok (.ksa k)) ∨ decode w = .ok .ksar := by
  rcases step_present_cases hs h with ⟨i, hw, hexec⟩ | ⟨_, -, rfl⟩
  · rcases eq_schedule_of_invalidArgument hexec hrsp with ⟨k, rfl⟩ | rfl
    · exact .inl ⟨k, hw⟩
    · exact .inr hw
  · exact absurd (raise_rsp_eq_iff (e := .illegalCommand).mp hrsp).1 (by decide)

/-- Settles O47: what a failing command does is `raise`, which changes ERR and the ports, and ends the session where
the error is INVALID_ARGUMENT. -/
theorem failingCommandHasNoPartialEffect : Obligations.FailingCommandHasNoPartialEffect := by
  intro s t w r c d hs h hrsp hc
  obtain ⟨e, rfl, rfl, rfl⟩ := step_present_eq_raise_of_rsp hs h hrsp hc
  refine ⟨rfl, raise_err e _, (raise_phase e _).trans hs, fun hne => raise_of_ne_invalidArgument hne _,
    fun hinv => ?_⟩
  obtain rfl := errorCode_eq_invalidArgument.mp hinv
  exact ⟨rfl, rfl, rfl, rfl, Memory.stored_nil, rfl, decode_schedule_of_invalidArgument hs h hrsp⟩

end Sys2Proof.Machine

/-! SUPPORT. Statements about the encoding, over every command and every word: decoding undoes encoding and the other
way round, the examples' words, and how many words are legal (30_encoding.md sections 1 to 6). -/

namespace Sys2Proof

/-! ### Decoding an encoded command (R51 to R53) -/

theorem decode_encode_peek (a : Byte) : decode (encode (.peek a)) = .ok (.peek a) := by
  have ho : opField (encode (.peek a)) = 0x4#4 := opField_wordB _ a
  have hz : zero4 (encode (.peek a)) = 0#4 := zero4_wordB _ a
  have ha : argField (encode (.peek a)) = a := argField_wordB _ a
  simp [decode, decodeB, ho, hz, ha]

theorem decode_encode (i : Instr) : decode (encode i) = .ok i := by
  cases i with
  | nop => rfl
  | ksa k => exact decode_encode_ksa k
  | ksar => rfl
  | crypt d => exact decode_encode_crypt d
  | peek a => exact decode_encode_peek a
  | rdreg r => cases r <;> rfl
  | clr => rfl

/-- Settles O2, command by command. -/
theorem decodeEncodeAgree : Obligations.DecodeEncodeAgree := decode_encode

/-- Settles O3: each case of the decoder puts the word together again from its fields. -/
theorem encodeDecodeAgree : Obligations.EncodeDecodeAgree := fun _ _ => encode_of_decode

/-- Settles O1: the words are the encodings of their commands. -/
theorem specWordsDecode : Obligations.SpecWordsDecode :=
  ⟨decode_encode .nop, decode_encode (.ksa 5#12), decode_encode (.ksa 256#12), decode_encode .ksar,
    decode_encode (.crypt 0x48#8), decode_encode (.peek 0xE0#8), decode_encode (.rdreg .j), decode_encode .clr⟩

/-! ### How many words are legal (R56) -/

/-- The legal words as ranges of numbers, the highest range first. -/
def legalRanges : List (Nat × Nat) :=
  [(0xF000, 0xF000), (0x5000, 0x5003), (0x4000, 0x40FF), (0x3000, 0x30FF), (0x2000, 0x2000), (0x1000, 0x1FFF),
    (0x0000, 0x0000)]

/-- The number lies in one of the ranges. -/
abbrev InRanges (l : List (Nat × Nat)) (n : Nat) : Prop := ∃ p ∈ l, p.1 ≤ n ∧ n ≤ p.2

/-- Ranges in falling order hold as many words as their lengths add up to. -/
theorem card_words_inRanges {l : List (Nat × Nat)} (hfall : l.Pairwise fun p q => q.2 < p.1)
    (hhi : ∀ p ∈ l, p.2 < 65536) :
    (Finset.univ.filter (fun w : Word => InRanges l w.toNat)).card = (l.map fun p => p.2 + 1 - p.1).sum := by
  induction l with
  | nil => simp
  | cons p l ih =>
    obtain ⟨hp, hl⟩ := List.pairwise_cons.mp hfall
    have hdisj : Disjoint (Finset.univ.filter (fun w : Word => p.1 ≤ w.toNat ∧ w.toNat ≤ p.2))
        (Finset.univ.filter (fun w : Word => InRanges l w.toNat)) :=
      Finset.disjoint_filter.mpr fun w _ ⟨hw, _⟩ ⟨q, hq, _, hw'⟩ => by
        have := hp q hq
        omega
    simp only [InRanges, List.exists_mem_cons_iff]
    rw [Finset.filter_or, Finset.card_union_of_disjoint hdisj, card_words_between (hhi p List.mem_cons_self),
      ih hl fun q hq => hhi q (List.mem_cons_of_mem p hq), List.map_cons, List.sum_cons]

/-- The must-be-zero fields and the opcodes of the commands, as numbers. -/
theorem not_illegalFields_iff_inRanges (w : Word) : ¬ IllegalFields w ↔ InRanges legalRanges w.toNat := by
  have hw := w.isLt
  simp only [IllegalFields, opField_toNat, low12_toNat, zero4, ← BitVec.toNat_inj, ne_eq, BitVec.extractLsb'_toNat,
    BitVec.toNat_ofNat, Nat.shiftRight_eq_div_pow, Nat.reducePow, Nat.reduceMod, InRanges, legalRanges,
    List.exists_mem_cons_iff, List.not_mem_nil, false_and, exists_false, or_false]
  omega

theorem legalWord_iff_selectedRow {w : Word} : legalWord w = true ↔ selectedRow w ≠ none := by
  rw [ne_eq, selectedRow_eq_none_iff, legalWord, List.any_eq_true]
  push Not
  rfl

/-- The legal words as numbers. -/
theorem legalWord_iff_inRanges (w : Word) : legalWord w = true ↔ InRanges legalRanges w.toNat := by
  rw [legalWord_iff_selectedRow, ne_eq, ← decode_eq_none_iff_selectedRow, decode_eq_none_iff_illegalFields,
    not_illegalFields_iff_inRanges]

/-- A word that does not decode is a word that is not legal. -/
theorem decode_eq_none_iff_not_legalWord (w : Word) : (decode w).toOption = none ↔ ¬ legalWord w = true := by
  rw [decode_eq_none_iff_selectedRow, legalWord_iff_selectedRow, not_not]

theorem card_word : Fintype.card Word = 65536 :=
  (Fintype.card_congr (BitVec.equivFin (m := 16)).toEquiv).trans (Fintype.card_fin (2 ^ 16))

/-- The words without a property are all but those with it. -/
theorem card_words_not {p : Word → Prop} [DecidablePred p] {n : Nat} (h : (Finset.univ.filter p).card = n) :
    (Finset.univ.filter fun w => ¬ p w).card = 65536 - n := by
  have hall := Finset.card_filter_add_card_filter_not (s := Finset.univ) p
  rw [h, Finset.card_univ, card_word] at hall
  omega

theorem card_legalWords : (Finset.univ.filter (fun w : Word => legalWord w = true)).card = 4615 := by
  rw [Finset.filter_congr fun w _ => legalWord_iff_inRanges w, card_words_inRanges (by decide) (by decide)]
  decide

/-- Settles O6: the legal words are counted range by range, and the illegal words are all others. -/
theorem legalWordCount : Obligations.LegalWordCount :=
  ⟨card_legalWords, (congrArg Finset.card (Finset.filter_congr fun w _ => decode_eq_none_iff_not_legalWord w)).trans
    (card_words_not card_legalWords)⟩

end Sys2Proof

/-! SUPPORT. Statements about the host interface: what a step does with each event of the outside, the reset state, the
one response of every command, the ports of which nothing is kept, and several blocks side by side
(43_host_interface.md sections 1, 2 and 4, 10_state.md R23, R24, 60_exceptions.md R164, R166). -/

namespace Sys2Proof.Machine

/-! ### A step, by the event it meets -/

theorem step_of_no_event {s : State} (h : s.inputs = []) : step s = .next { s with rsp := none } := by
  simp [step, State.fetch, State.withoutCommand, h]

theorem step_of_quiet {s : State} {rest : List HostEvent} (h : s.inputs = .quiet :: rest) :
    step s = .next { s with inputs := rest, rsp := none } := by
  simp [step, State.fetch, State.withoutCommand, h]

/-- A busy block leaves the command at the port (R132, R189). -/
theorem step_of_busy {s : State} {w : Word} {r : Byte} {rest : List HostEvent} (hbusy : s.phase ≠ .idle)
    (h : s.inputs = .command w r :: rest) : step s = .next { s with rsp := none } := by
  simp [step, State.fetch, State.withoutCommand, h, hbusy]

theorem fetch_of_idle {s : State} {w : Word} {r : Byte} {rest : List HostEvent} (hidle : s.phase = .idle)
    (h : s.inputs = .command w r :: rest) : s.fetch = some (w, { s with inputs := rest, rnd := some r }) := by
  simp [State.fetch, State.accept, h, hidle]

/-- An idle block accepts a command and runs it. -/
theorem step_of_decode_ok {s : State} {w : Word} {r : Byte} {rest : List HostEvent} {i : Instr}
    (hidle : s.phase = .idle) (h : s.inputs = .command w r :: rest) (hw : decode w = .ok i) :
    step s = exec i { s with inputs := rest, rnd := some r } := by
  simp [step, fetch_of_idle hidle h, hw]

theorem step_of_decode_error {s : State} {w : Word} {r : Byte} {rest : List HostEvent} {e : Reject}
    (hidle : s.phase = .idle) (h : s.inputs = .command w r :: rest) (hw : decode w = .error e) :
    step s = .next (illegalCommand { s with inputs := rest, rnd := some r }) := by
  simp [step, fetch_of_idle hidle h, hw]

/-- The events a step can meet, a command at an idle block by its word. -/
theorem event_cases (s : State) :
    s.inputs = [] ∨ (∃ rest, s.inputs = .quiet :: rest) ∨ (∃ rest, s.inputs = .reset :: rest) ∨
    (∃ w r rest, s.inputs = .command w r :: rest ∧ s.phase ≠ .idle) ∨
    (∃ w r rest i, s.inputs = .command w r :: rest ∧ s.phase = .idle ∧ decode w = .ok i) ∨
    (∃ w r rest e, s.inputs = .command w r :: rest ∧ s.phase = .idle ∧ decode w = .error e) := by
  rcases s.inputs with _ | ⟨_ | ⟨w, r⟩ | _, rest⟩
  · exact .inl rfl
  · exact .inr (.inl ⟨rest, rfl⟩)
  · by_cases hidle : s.phase = .idle
    · rcases hw : decode w with e | i
      · exact .inr (.inr (.inr (.inr (.inr ⟨w, r, rest, e, rfl, hidle, hw⟩))))
      · exact .inr (.inr (.inr (.inr (.inl ⟨w, r, rest, i, rfl, hidle, hw⟩))))
    · exact .inr (.inr (.inr (.inl ⟨w, r, rest, rfl, hidle⟩)))
  · exact .inr (.inr (.inl ⟨rest, rfl⟩))

/-- Settles O8. -/
theorem stepRunsDecodedCommand : Obligations.StepRunsDecodedCommand :=
  fun _ _ _ _ _ hidle hin hw => step_of_decode_ok hidle hin hw

/-- Settles O9: a command, a refused word and a step without a command all answer a next state. -/
theorem everyStepAnswersNext : Obligations.EveryStepAnswersNext := step_next

/-- Settles O11. -/
theorem quietStepHoldsState : Obligations.QuietStepHoldsState :=
  ⟨fun _ => step_of_no_event, fun _ _ => step_of_quiet⟩

/-- Settles O12: only an idle block fetches a command, and a reset is no command. -/
theorem busyBlockHoldsCommand : Obligations.BusyBlockHoldsCommand :=
  ⟨fun _ _ _ _ hbusy hin => ⟨_, step_of_busy hbusy hin, hin, rfl⟩,
    fun s rest hin => ⟨s.afterReset rest, step_reset hin, rfl, rfl, rfl⟩⟩

/-! ### The reset state (R24, R25) -/

/-- Settles O14: STATUS reads 0 with its fields at their reset values, and KEYED = 0 refuses CRYPT and PEEK. -/
theorem resetStateValues : Obligations.ResetStateValues :=
  ⟨rfl, readCtrl_eq_zero rfl rfl rfl rfl rfl .status, rfl, rfl, rfl, rfl, rfl, Memory.stored_nil, Memory.stored_nil,
    fun d => ⟨_, exec_crypt_notKeyed rfl d, raise_rsp _ _⟩, fun a => ⟨_, exec_peek_notKeyed rfl a, raise_rsp _ _⟩⟩

/-- Settles O51: at reset the session is over. -/
theorem invariantHoldsAtReset : Obligations.InvariantHoldsAtReset := sessionInv_reset_inputs []

/-! ### One response for every command (R58, R59, R134) -/

@[simp] theorem raise_inputs (e : ErrorKind) (s : State) : (raise e s).inputs = s.inputs := by
  cases e <;> rfl

theorem keySchedule_keeps_inputs (k : Nat) (s : State) : (keySchedule k s).inputs = s.inputs := by
  rcases keySchedule_cases k s with ⟨-, h⟩ | ⟨-, h⟩ <;> rw [h]
  · exact raise_inputs _ s
  · rfl

theorem keySchedule_keeps_idle (k : Nat) {s : State} (hs : s.phase = .idle) : (keySchedule k s).phase = .idle := by
  rcases keySchedule_cases k s with ⟨-, h⟩ | ⟨-, h⟩ <;> rw [h]
  · exact (raise_phase _ s).trans hs
  · rfl

/-- A command runs to its end and leaves the pending inputs alone. -/
theorem exec_keeps_ports {i : Instr} {s t : State} (h : exec i s = .next t) (hs : s.phase = .idle) :
    t.phase = .idle ∧ t.inputs = s.inputs := by
  have raised : ∀ e, (raise e s).phase = .idle ∧ (raise e s).inputs = s.inputs := fun e =>
    ⟨(raise_phase e s).trans hs, raise_inputs e s⟩
  cases i with
  | nop => cases h; exact ⟨hs, rfl⟩
  | ksa k => cases h; exact ⟨keySchedule_keeps_idle _ hs, keySchedule_keeps_inputs _ s⟩
  | ksar => cases h; exact ⟨keySchedule_keeps_idle _ hs, keySchedule_keeps_inputs _ s⟩
  | crypt d =>
    rw [exec_crypt, next_inj] at h
    subst h
    split
    · exact ⟨prgaStep_phase d s, rfl⟩
    · exact raised _
  | peek a =>
    rw [exec_peek, next_inj] at h
    subst h
    split
    · exact ⟨rfl, rfl⟩
    · exact raised _
  | rdreg r => cases h; exact ⟨rfl, rfl⟩
  | clr => cases h; exact ⟨hs, rfl⟩

/-- A command that fails answers no data. -/
theorem exec_answers {i : Instr} {s t : State} (h : exec i s = .next t) :
    ∃ c d, t.rsp = some (responseWord c d) ∧ (c ≠ .ok → d = 0#8) := by
  rcases exec_err_cases h with ⟨e, rfl⟩ | ⟨d, hrsp, -⟩
  · exact ⟨_, _, raise_rsp e s, fun _ => rfl⟩
  · exact ⟨.ok, d, hrsp, fun hc => absurd rfl hc⟩

theorem step_present_answers {s : State} (hs : s.phase = .idle) (w : Word) (r : Byte) :
    ∃ (t : State) (c : ResultCode) (d : Byte), step (s.present w r) = .next t ∧
      t.rsp = some (responseWord c d) ∧ (c ≠ .ok → d = 0#8) ∧ t.phase = .idle ∧ t.inputs = s.inputs := by
  obtain ⟨t, ht⟩ := step_next (s.present w r)
  rcases step_present_cases hs ht with ⟨i, -, hexec⟩ | ⟨_, -, rfl⟩
  · obtain ⟨c, d, hrsp, hdata⟩ := exec_answers hexec
    obtain ⟨hphase, hinputs⟩ := exec_keeps_ports hexec hs
    exact ⟨t, c, d, ht, hrsp, hdata, hphase, hinputs⟩
  · exact ⟨_, .illegalCommand, 0#8, ht, rfl, fun _ => rfl, hs, rfl⟩

theorem responseWord_toNat (c : ResultCode) (d : Byte) :
    (responseWord c d).toNat = 256 * (codeNumber c).toNat + d.toNat := by
  rw [responseWord, BitVec.toNat_append, ← Nat.shiftLeft_add_eq_or_of_lt d.isLt, Nat.shiftLeft_eq, Nat.mul_comm]

theorem responseCode_responseWord (c : ResultCode) (d : Byte) : responseCode (responseWord c d) = codeNumber c := by
  rw [responseCode, responseWord, BitVec.extractLsb'_append_eq_of_le (by decide), BitVec.extractLsb'_eq_self]

theorem responseData_responseWord (c : ResultCode) (d : Byte) : responseData (responseWord c d) = d := by
  rw [responseData, responseWord, BitVec.extractLsb'_append_eq_of_add_le (by decide), BitVec.extractLsb'_eq_self]

/-- Settles O10: a command and a refused word end idle with one response, whose two bytes are CODE and DATA. -/
theorem everyCommandGivesOneResponse : Obligations.EveryCommandGivesOneResponse :=
  ⟨fun _ w r hs => step_present_answers hs w r,
    fun c d => ⟨responseWord_toNat c d, responseCode_responseWord c d, responseData_responseWord c d⟩,
    rfl, rfl, rfl, rfl⟩

/-! ### The `rnd` byte and the last response (R23, R135) -/

/-- The state with another `rnd` byte sampled and another last response at the port. -/
def State.withPorts (x : Option Byte) (a : Option Word) (s : State) : State := { s with rnd := x, rsp := a }

theorem raise_withPorts (e : ErrorKind) (x : Option Byte) (a : Option Word) (s : State) :
    raise e (s.withPorts x a) = raise e s := by
  cases e <;> rfl

theorem keySchedule_withPorts (k : Nat) (x : Option Byte) (a : Option Word) (s : State) :
    keySchedule k (s.withPorts x a) = keySchedule k s := by
  unfold keySchedule
  split
  · exact raise_withPorts _ x a s
  · rfl

/-- Only KSAR looks at the sampled byte, and no command at the last response. -/
theorem exec_withPorts {i : Instr} (hi : i ≠ .ksar) (x : Option Byte) (a : Option Word) (s : State) :
    exec i (s.withPorts x a) = exec i s := by
  have hkeyed : (s.withPorts x a).keyed = s.keyed := rfl
  cases i with
  | nop => rfl
  | ksa k => rw [exec_ksa, exec_ksa, keySchedule_withPorts]
  | ksar => exact absurd rfl hi
  | crypt d => rw [exec_crypt, exec_crypt, raise_withPorts, hkeyed]; rfl
  | peek b => rw [exec_peek, exec_peek, raise_withPorts, hkeyed]; rfl
  | rdreg r => cases r <;> rfl
  | clr => rfl

theorem exec_ignores_rsp (i : Instr) (a : Option Word) (s : State) : exec i { s with rsp := a } = exec i s := by
  by_cases hi : i = .ksar
  · rw [hi, exec_ksar, exec_ksar]
    exact congrArg Host.Outcome.next (keySchedule_withPorts (drawnByte s).toNat s.rnd a s)
  · exact exec_withPorts hi s.rnd a s

/-- The last response changes nothing in the next step. -/
theorem step_ignores_rsp (a : Option Word) (s : State) : step { s with rsp := a } = step s := by
  rcases event_cases s with hin | ⟨rest, hin⟩ | ⟨rest, hin⟩ | ⟨w, r, rest, hin, hbusy⟩ |
    ⟨w, r, rest, i, hin, hidle, hw⟩ | ⟨w, r, rest, e, hin, hidle, hw⟩
  · rw [step_of_no_event hin, step_of_no_event (s := { s with rsp := a }) hin]
  · rw [step_of_quiet hin, step_of_quiet (s := { s with rsp := a }) hin]
  · rw [step_reset hin, step_reset (s := { s with rsp := a }) hin]
    rfl
  · rw [step_of_busy hbusy hin, step_of_busy (s := { s with rsp := a }) hbusy hin]
  · rw [step_of_decode_ok hidle hin hw, step_of_decode_ok (s := { s with rsp := a }) hidle hin hw]
    exact exec_ignores_rsp i a { s with inputs := rest, rnd := some r }
  · rw [step_of_decode_error hidle hin hw, step_of_decode_error (s := { s with rsp := a }) hidle hin hw]
    exact congrArg Host.Outcome.next
      (raise_withPorts .illegalCommand (some r) a { s with inputs := rest, rnd := some r })

/-- A new command replaces the sampled byte. -/
theorem step_present_ignores_rnd {s : State} (hs : s.phase = .idle) (w : Word) (r : Byte) (x : Option Byte) :
    step (({ s with rnd := x } : State).present w r) = step (s.present w r) := by
  cases hw : decode w with
  | ok i => rw [step_present_ok hs r hw, step_present_ok (s := { s with rnd := x }) hs r hw]
  | error e => rw [step_present_error hs r hw, step_present_error (s := { s with rnd := x }) hs r hw]

/-- A step that runs no command leaves the sampled byte or resets it. -/
theorem withoutCommand_rnd {s : State} (hs : s.rnd = none) : s.withoutCommand.rnd = none := by
  rcases withoutCommand_cases s with ⟨rest, h⟩ | ⟨rest, -, h⟩ <;> rw [h]
  · exact hs
  · rfl

theorem step_keeps_no_rnd {s t : State} (hs : s.rnd = none) (h : step s = .next t) : t.rnd = none := by
  rcases step_cases s with ⟨w, s', i, -, -, hstep⟩ | ⟨w, s', e, -, -, hstep⟩ | ⟨-, hstep⟩ <;> rw [hstep] at h
  · exact exec_rnd h
  · rw [next_inj] at h
    exact h ▸ raise_rnd .illegalCommand s'
  · rw [next_inj] at h
    exact h ▸ withoutCommand_rnd hs

theorem step_present_rnd {s t : State} {w : Word} {r : Byte} (hs : s.phase = .idle)
    (h : step (s.present w r) = .next t) : t.rnd = none := by
  rcases step_present_cases hs h with ⟨i, -, hexec⟩ | ⟨_, -, rfl⟩
  · exact exec_rnd hexec
  · exact raise_rnd .illegalCommand _

/-- Settles O16: the sampled byte reaches no command but KSAR. -/
theorem rndIgnoredExceptByKsar : Obligations.RndIgnoredExceptByKsar := by
  intro i s r hi
  obtain ⟨t, ht⟩ := exec_next i s
  exact ⟨t, ht, (exec_withPorts hi r s.rsp s).trans ht, exec_rnd ht⟩

/-- Settles O17: commands and refused words end with no byte, and no step reads the last response. -/
theorem nothingOfThePortsIsKept : Obligations.NothingOfThePortsIsKept :=
  ⟨fun _ _ _ _ => step_present_rnd, fun _ _ => step_keeps_no_rnd, fun _ w r x hs => step_present_ignores_rnd hs w r x,
    fun s x => step_ignores_rsp x s⟩

/-! ### Several blocks (R164) -/

theorem getElem?_stepInstance_of_ne {n m : Nat} (h : m ≠ n) (sys : Instances) :
    (stepInstance n sys)[m]? = sys[m]? :=
  List.getElem?_modify_ne _ sys (Ne.symm h)

/-- Settles O18: one block of the list is replaced by what its own step leaves. -/
theorem instancesShareNothing : Obligations.InstancesShareNothing := by
  refine ⟨fun sys n m h => getElem?_stepInstance_of_ne h sys, fun sys₁ sys₂ n h => ?_, fun sys n s t hs ht => ?_⟩
  · rw [stepInstance, stepInstance, List.getElem?_modify_eq, List.getElem?_modify_eq, h]
  · rw [stepInstance, List.getElem?_modify_eq, hs]
    simp [ht]

end Sys2Proof.Machine

/-! SUPPORT. Invariants of what the block stores: what a step can do to S and T, the canonical form of both memories,
and that S holds no value while the block is not keyed (20_memory.md R31, R47). -/

namespace Sys2Proof.Machine

/-! ### What a step can do to S (20_memory.md R43) -/

/-- What one step can make of the contents of S, with what it makes of KEYED. -/
inductive ContentsChange (s t : State) : Prop where
  /-- S and KEYED stay. -/
  | kept (hkeyed : t.keyed = s.keyed) (hpmem : t.pmem = s.pmem)
  /-- The session is over and S holds no value. -/
  | forgotten (hkeyed : t.keyed = false) (hpmem : t.pmem = [])
  /-- A key schedule has completed. -/
  | scheduled (u : Byte → Byte) (key : Byte) (hkeyed : t.keyed = true)
      (hpmem : t.pmem = (mixLoop u key (identityWrites s.pmem)).1)
  /-- A keyed block has run a generation step. -/
  | swapped (u : Byte → Byte) (a b : Byte) (hs : s.keyed = true) (hkeyed : t.keyed = true)
      (hpmem : t.pmem = Memory.swap s.pmem u a b)

theorem raise_contentsChange (e : ErrorKind) (s : State) : ContentsChange s (raise e s) := by
  cases e with
  | invalidArgument => exact .forgotten rfl rfl
  | notKeyed => exact .kept rfl rfl
  | illegalCommand => exact .kept rfl rfl

theorem keySchedule_contentsChange (k : Nat) (s : State) : ContentsChange s (keySchedule k s) := by
  rcases keySchedule_cases k s with ⟨-, h⟩ | ⟨-, h⟩ <;> rw [h]
  · exact raise_contentsChange _ s
  · exact .scheduled _ _ rfl rfl

theorem exec_contentsChange {i : Instr} {s t : State} (h : exec i s = .next t) : ContentsChange s t := by
  cases i with
  | nop => cases h; exact .kept rfl rfl
  | ksa k => cases h; exact keySchedule_contentsChange _ s
  | ksar => cases h; exact keySchedule_contentsChange _ s
  | crypt d =>
    rw [exec_crypt, next_inj] at h
    subst h
    split
    · exact .swapped _ _ _ ‹_› ((prgaStep_keyed d s).trans ‹_›) (prgaStep_pmem d s)
    · exact raise_contentsChange _ s
  | peek a =>
    rw [exec_peek, next_inj] at h
    subst h
    split
    · exact .kept rfl rfl
    · exact raise_contentsChange _ s
  | rdreg r => cases h; exact .kept rfl rfl
  | clr => cases h; exact .forgotten rfl rfl

/-- Acceptance touches the ports only. -/
theorem ContentsChange.of_fetch {s s' t : State} {w : Word} (hf : s.fetch = some (w, s')) (h : ContentsChange s' t) :
    ContentsChange s t := by
  obtain ⟨-, r, rest, -, rfl⟩ := fetch_eq_some hf
  cases h with
  | kept hkeyed hpmem => exact .kept hkeyed hpmem
  | forgotten hkeyed hpmem => exact .forgotten hkeyed hpmem
  | scheduled u key hkeyed hpmem => exact .scheduled u key hkeyed hpmem
  | swapped u a b hs hkeyed hpmem => exact .swapped u a b hs hkeyed hpmem

theorem withoutCommand_contentsChange (s : State) : ContentsChange s s.withoutCommand := by
  rcases withoutCommand_cases s with ⟨rest, h⟩ | ⟨rest, -, h⟩ <;> rw [h]
  · exact .kept rfl rfl
  · exact .forgotten rfl rfl

theorem step_contentsChange {s t : State} (h : step s = .next t) : ContentsChange s t := by
  rcases step_cases s with ⟨w, s', i, hf, -, hstep⟩ | ⟨w, s', e, hf, -, hstep⟩ | ⟨-, hstep⟩ <;> rw [hstep] at h
  · exact (exec_contentsChange h).of_fetch hf
  · rw [next_inj] at h
    exact h ▸ (raise_contentsChange .illegalCommand s').of_fetch hf
  · rw [next_inj] at h
    exact h ▸ withoutCommand_contentsChange s

/-! ### What a step can do to T (R13) -/

theorem raise_table (e : ErrorKind) (s : State) : (raise e s).t = s.t ∨ (raise e s).t = [] := by
  cases e with
  | invalidArgument => exact .inr rfl
  | notKeyed => exact .inl rfl
  | illegalCommand => exact .inl rfl

theorem keySchedule_table (k : Nat) (s : State) : (keySchedule k s).t = [] := by
  rcases keySchedule_cases k s with ⟨-, h⟩ | ⟨-, h⟩ <;> rw [h]
  · rfl
  · rfl

theorem exec_table {i : Instr} {s t : State} (h : exec i s = .next t) : t.t = s.t ∨ t.t = [] := by
  cases i with
  | nop => cases h; exact .inl rfl
  | ksa k => cases h; exact .inr (keySchedule_table _ s)
  | ksar => cases h; exact .inr (keySchedule_table _ s)
  | crypt d =>
    rw [exec_crypt, next_inj] at h
    subst h
    split
    · exact .inl (prgaStep_t d s)
    · exact raise_table _ s
  | peek a =>
    rw [exec_peek, next_inj] at h
    subst h
    split
    · exact .inl rfl
    · exact raise_table _ s
  | rdreg r => cases h; exact .inl rfl
  | clr => cases h; exact .inr rfl

/-- Between two steps T is what it was, or holds no value. -/
theorem step_table {s t : State} (h : step s = .next t) : t.t = s.t ∨ t.t = [] := by
  have accepted : ∀ {w s'}, s.fetch = some (w, s') → s'.t = s.t := fun hf => by
    obtain ⟨-, r, rest, -, rfl⟩ := fetch_eq_some hf
    rfl
  rcases step_cases s with ⟨w, s', i, hf, -, hstep⟩ | ⟨w, s', e, hf, -, hstep⟩ | ⟨-, hstep⟩ <;> rw [hstep] at h
  · exact accepted hf ▸ exec_table h
  · rw [next_inj] at h
    exact accepted hf ▸ h ▸ raise_table .illegalCommand s'
  · rw [next_inj] at h
    subst h
    rcases withoutCommand_cases s with ⟨rest, hw⟩ | ⟨rest, -, hw⟩ <;> rw [hw]
    · exact .inl rfl
    · exact .inr rfl

/-! ### The canonical form (R31) -/

theorem ContentsChange.wf {s t : State} (h : ContentsChange s t) (hs : Memory.wf s.pmem = true) :
    Memory.wf t.pmem = true := by
  cases h with
  | kept _ hpmem => exact hpmem ▸ hs
  | forgotten _ hpmem => exact hpmem ▸ Memory.wf_nil
  | scheduled u key _ hpmem => exact hpmem ▸ mixLoop_wf u key (identityWrites_wf hs)
  | swapped u a b _ _ hpmem => exact hpmem ▸ Memory.wf_swap u a b hs

theorem step_keeps_canonical {s t : State} (hs : Canonical s) (h : step s = .next t) : Canonical t := by
  obtain ⟨hpmem, htable⟩ := hs
  refine ⟨(step_contentsChange h).wf hpmem, ?_⟩
  rcases step_table h with ht | ht <;> rw [ht]
  · exact htable
  · exact Memory.wf_nil

/-- Settles O23: S changes by writes and swaps only, and T is kept or forgotten. -/
theorem stepKeepsCanonicalMemory : Obligations.StepKeepsCanonicalMemory := fun _ _ => step_keeps_canonical

/-! ### S while the block is not keyed (R47) -/

/-- Settles O53: a step that ends not keyed has left S as it was or forgotten it. -/
theorem notKeyedHoldsNoValue : Obligations.NotKeyedHoldsNoValue := by
  intro s t hs h ht
  cases step_contentsChange h with
  | kept hkeyed hpmem => exact hpmem ▸ hs (hkeyed.symm.trans ht)
  | forgotten _ hpmem => exact hpmem ▸ Memory.stored_nil
  | scheduled _ _ hkeyed _ => exact absurd (hkeyed.symm.trans ht) (by decide)
  | swapped _ _ _ _ hkeyed _ => exact absurd (hkeyed.symm.trans ht) (by decide)

/-! ### Two blocks that differ in unspecified contents only (R47) -/

/-- While the block is keyed every location of S holds a value, and no two hold the same (R12). -/
def KeyedPermutation (s : State) : Prop := s.keyed = true → IsPermutation s.pmem

theorem ContentsChange.keyedPermutation {s t : State} (h : ContentsChange s t) (hs : KeyedPermutation s) :
    KeyedPermutation t := by
  intro ht
  cases h with
  | kept hkeyed hpmem => exact hpmem ▸ hs (hkeyed.symm.trans ht)
  | forgotten hkeyed _ => exact absurd (hkeyed.symm.trans ht) (by decide)
  | scheduled u key _ hpmem => exact hpmem ▸ (isPermutation_identityWrites s.pmem).mixLoop u key
  | swapped u a b hs' _ hpmem => exact hpmem ▸ (hs hs').swap u a b

/-- A read of a permutation asks for no unspecified byte. -/
theorem IsPermutation.read_eq {m : Memory} (h : IsPermutation m) (u u' : Byte → Byte) (a : Byte) :
    Memory.read m u a = Memory.read m u' a :=
  Memory.read_of_stored u (Memory.stored_eq_read u' (h.1 a))

theorem IsPermutation.swap_eq {m : Memory} (h : IsPermutation m) (u u' : Byte → Byte) (a b : Byte) :
    Memory.swap m u a b = Memory.swap m u' a b := by
  rw [Memory.swap_eq, Memory.swap_eq, h.read_eq u u' a, h.read_eq u u' b]

/-- What a key schedule leaves in S, as a list, does not depend on what S held. -/
theorem scheduled_pmem_eq {m₁ m₂ : Memory} (h₁ : Memory.wf m₁ = true) (h₂ : Memory.wf m₂ = true)
    (u₁ u₂ : Byte → Byte) (key : Byte) :
    (mixLoop u₁ key (identityWrites m₁)).1 = (mixLoop u₂ key (identityWrites m₂)).1 := by
  refine Memory.eq_of_stored_eq (mixLoop_wf u₁ key (identityWrites_wf h₁)) (mixLoop_wf u₂ key (identityWrites_wf h₂))
    fun a => ?_
  rw [holds_mixLoop u₁ key (holds_identityWrites m₁) a, holds_mixLoop u₂ key (holds_identityWrites m₂) a]

/-- Two blocks whose S no host can tell apart: a simulation between runs of the one and of the other. -/
structure Indistinguishable (s₁ s₂ : State) : Prop where
  canonical₁ : Canonical s₁
  canonical₂ : Canonical s₂
  permutation : KeyedPermutation s₁
  same : SameButUnspecified s₁ s₂

section
variable {s₁ s₂ : State}

theorem SameButUnspecified.respond (h : SameButUnspecified s₁ s₂) (c : ResultCode) (d : Byte) :
    SameButUnspecified (respond c d s₁) (respond c d s₂) :=
  { h with rnd := rfl, rsp := rfl }

theorem SameButUnspecified.withErr (h : SameButUnspecified s₁ s₂) (e : ResultCode) :
    SameButUnspecified { s₁ with err := e } { s₂ with err := e } :=
  { h with err := rfl }

theorem SameButUnspecified.endSession (h : SameButUnspecified s₁ s₂) :
    SameButUnspecified (endSession s₁) (endSession s₂) :=
  { h with i := rfl, j := rfl, key := rfl, keyed := rfl, pmem := fun _ => rfl }

theorem SameButUnspecified.raise (h : SameButUnspecified s₁ s₂) (e : ErrorKind) :
    SameButUnspecified (raise e s₁) (raise e s₂) := by
  cases e with
  | invalidArgument => exact (h.endSession.withErr _).respond _ _
  | notKeyed => exact (h.withErr _).respond _ _
  | illegalCommand => exact (h.withErr _).respond _ _

theorem SameButUnspecified.endAccess (h : SameButUnspecified s₁ s₂) (v : Byte) :
    SameButUnspecified (endAccess v s₁) (endAccess v s₂) :=
  { h with phase := rfl, rnd := rfl, rsp := rfl }

theorem SameButUnspecified.readCtrl (h : SameButUnspecified s₁ s₂) (r : CtrlReg) :
    readCtrl r s₁ = readCtrl r s₂ := by
  cases r with
  | status => rw [Machine.readCtrl, Machine.readCtrl, statusByte, statusByte, keyedBit, keyedBit, h.err, h.keyed]
  | key => exact h.key
  | i => exact h.i
  | j => exact h.j

/-- Of two key schedules that complete, KEY, ERR, the pending inputs and S are all that can differ. -/
theorem sameButUnspecified_completeSchedule (hkey : s₁.key = s₂.key) (herr : s₁.err = s₂.err)
    (hinputs : s₁.inputs = s₂.inputs) (hpmem : s₁.pmem = s₂.pmem) :
    SameButUnspecified (completeSchedule s₁) (completeSchedule s₂) :=
  ⟨rfl, rfl, hkey, rfl, herr, rfl, hinputs, rfl, congrArg (fun k => some (responseWord .ok k)) hkey, fun _ => hpmem⟩

/-- A read of S in a keyed block shows no unspecified byte. -/
theorem Indistinguishable.readS (h : Indistinguishable s₁ s₂) (hkeyed : s₁.keyed = true) (a : Byte) :
    readS s₁ a = readS s₂ a := by
  rw [Machine.readS, Machine.readS, ← h.same.pmem hkeyed]
  exact (h.permutation hkeyed).read_eq _ _ a

theorem Indistinguishable.keySchedule (h : Indistinguishable s₁ s₂) (k : Nat) :
    SameButUnspecified (keySchedule k s₁) (keySchedule k s₂) := by
  rcases keySchedule_cases k s₁ with ⟨hk, h₁⟩ | ⟨⟨hk₁, hk₂⟩, h₁⟩ <;> rw [h₁]
  · rw [keySchedule_invalid hk]
    exact h.same.raise _
  · rw [keySchedule_valid hk₁ hk₂]
    refine sameButUnspecified_completeSchedule ?_ h.same.err h.same.inputs ?_
    · rw [mixPhase_key, mixPhase_key, initPhase_key, initPhase_key]
    · rw [mixPhase_pmem, mixPhase_pmem]
      exact scheduled_pmem_eq h.canonical₁.1 h.canonical₂.1 _ _ (mod256 k)

theorem Indistinguishable.prgaStep (h : Indistinguishable s₁ s₂) (hkeyed : s₁.keyed = true) (d : Byte) :
    SameButUnspecified (prgaStep d s₁) (prgaStep d s₂) := by
  have hi : (Machine.prgaStep d s₁).i = (Machine.prgaStep d s₂).i := by
    rw [prgaStep_i, prgaStep_i, h.same.i]
  have hj : (Machine.prgaStep d s₁).j = (Machine.prgaStep d s₂).j := by
    rw [prgaStep_j, prgaStep_j, h.same.j, hi, h.readS hkeyed]
  have hreadS : ∀ a, Machine.readS (Machine.prgaStep d s₁) a = Machine.readS (Machine.prgaStep d s₂) a := fun a => by
    rw [readS_prgaStep, readS_prgaStep, hi, hj, h.readS hkeyed, h.readS hkeyed, h.readS hkeyed]
  have hrsp : (Machine.prgaStep d s₁).rsp = (Machine.prgaStep d s₂).rsp := by
    rw [prgaStep_rsp, prgaStep_rsp, keystreamByte, keystreamByte, hreadS, hreadS, hreadS, hi, hj]
  have hpmem : (Machine.prgaStep d s₁).pmem = (Machine.prgaStep d s₂).pmem := by
    rw [prgaStep_pmem, prgaStep_pmem, hi, hj, ← h.same.pmem hkeyed]
    exact (h.permutation hkeyed).swap_eq _ _ _ _
  exact { h.same with i := hi, j := hj, phase := rfl, rnd := rfl, rsp := hrsp, pmem := fun _ => hpmem }

/-- A command shows two indistinguishable blocks alike, given the `rnd` byte that was sampled with it. -/
theorem Indistinguishable.exec (h : Indistinguishable s₁ s₂) {r : Byte} (hrnd : s₁.rnd = some r) {i : Instr}
    {t₁ t₂ : State} (h₁ : exec i s₁ = .next t₁) (h₂ : exec i s₂ = .next t₂) : SameButUnspecified t₁ t₂ := by
  cases i with
  | nop => cases h₁; cases h₂; exact h.same.respond _ _
  | ksa k => cases h₁; cases h₂; exact h.keySchedule _
  | ksar =>
    rw [exec_ksar, next_inj] at h₁ h₂
    rw [drawnByte, hrnd] at h₁
    rw [drawnByte, ← h.same.rnd, hrnd] at h₂
    exact h₁ ▸ h₂ ▸ h.keySchedule _
  | crypt d =>
    rw [exec_crypt, next_inj] at h₁ h₂
    rw [← h.same.keyed] at h₂
    subst h₁ h₂
    split
    · exact h.prgaStep ‹_› d
    · exact h.same.raise _
  | peek a =>
    rw [exec_peek, next_inj] at h₁ h₂
    rw [← h.same.keyed] at h₂
    subst h₁ h₂
    split
    · rw [h.readS ‹_›]
      exact h.same.endAccess _
    · exact h.same.raise _
  | rdreg r =>
    rw [exec_rdreg, next_inj] at h₁ h₂
    rw [← h.same.readCtrl] at h₂
    exact h₁ ▸ h₂ ▸ h.same.endAccess _
  | clr => cases h₁; cases h₂; exact (h.same.endSession.withErr _).respond _ _

/-- Acceptance takes the same `rnd` byte from the same port. -/
theorem Indistinguishable.accept (h : Indistinguishable s₁ s₂) (r : Byte) (rest : List HostEvent) :
    Indistinguishable { s₁ with inputs := rest, rnd := some r } { s₂ with inputs := rest, rnd := some r } :=
  ⟨h.canonical₁, h.canonical₂, h.permutation, { h.same with inputs := rfl, rnd := rfl }⟩

theorem SameButUnspecified.afterReset (rest : List HostEvent) :
    SameButUnspecified (s₁.afterReset rest) (s₂.afterReset rest) :=
  ⟨rfl, rfl, rfl, rfl, rfl, rfl, rfl, rfl, rfl, fun _ => rfl⟩

/-- A step shows two indistinguishable blocks alike: both meet the same event. -/
theorem Indistinguishable.step_same (h : Indistinguishable s₁ s₂) {t₁ t₂ : State} (h₁ : step s₁ = .next t₁)
    (h₂ : step s₂ = .next t₂) : SameButUnspecified t₁ t₂ := by
  have hinputs := h.same.inputs
  have hphase := h.same.phase
  rcases event_cases s₁ with hin | ⟨rest, hin⟩ | ⟨rest, hin⟩ | ⟨w, r, rest, hin, hbusy⟩ |
    ⟨w, r, rest, i, hin, hidle, hw⟩ | ⟨w, r, rest, e, hin, hidle, hw⟩
  · rw [step_of_no_event hin, next_inj] at h₁
    rw [step_of_no_event (hinputs ▸ hin), next_inj] at h₂
    exact h₁ ▸ h₂ ▸ { h.same with rsp := rfl }
  · rw [step_of_quiet hin, next_inj] at h₁
    rw [step_of_quiet (hinputs ▸ hin), next_inj] at h₂
    exact h₁ ▸ h₂ ▸ { h.same with inputs := rfl, rsp := rfl }
  · rw [step_reset hin, next_inj] at h₁
    rw [step_reset (hinputs ▸ hin), next_inj] at h₂
    exact h₁ ▸ h₂ ▸ SameButUnspecified.afterReset rest
  · rw [step_of_busy hbusy hin, next_inj] at h₁
    rw [step_of_busy (hphase ▸ hbusy) (hinputs ▸ hin), next_inj] at h₂
    exact h₁ ▸ h₂ ▸ { h.same with rsp := rfl }
  · rw [step_of_decode_ok hidle hin hw] at h₁
    rw [step_of_decode_ok (hphase ▸ hidle) (hinputs ▸ hin) hw] at h₂
    exact (h.accept r rest).exec rfl h₁ h₂
  · rw [step_of_decode_error hidle hin hw, next_inj] at h₁
    rw [step_of_decode_error (hphase ▸ hidle) (hinputs ▸ hin) hw, next_inj] at h₂
    exact h₁ ▸ h₂ ▸ (h.accept r rest).same.raise .illegalCommand

/-- Every step of the one block has its step of the other, and they stay indistinguishable. -/
theorem Indistinguishable.step (h : Indistinguishable s₁ s₂) :
    ∃ t₁ t₂, step s₁ = .next t₁ ∧ step s₂ = .next t₂ ∧ Indistinguishable t₁ t₂ := by
  obtain ⟨t₁, h₁⟩ := step_next s₁
  obtain ⟨t₂, h₂⟩ := step_next s₂
  exact ⟨t₁, t₂, h₁, h₂, step_keeps_canonical h.canonical₁ h₁, step_keeps_canonical h.canonical₂ h₂,
    (step_contentsChange h₁).keyedPermutation h.permutation, h.step_same h₁ h₂⟩

theorem Indistinguishable.run (h : Indistinguishable s₁ s₂) (n : Nat) :
    ∃ t₁ t₂, Host.Core.run core n s₁ = .next t₁ ∧ Host.Core.run core n s₂ = .next t₂ ∧ Indistinguishable t₁ t₂ := by
  induction n generalizing s₁ s₂ with
  | zero => exact ⟨s₁, s₂, rfl, rfl, h⟩
  | succ n ih =>
    obtain ⟨t₁, t₂, h₁, h₂, ht⟩ := h.step
    rw [run_succ_of_step (M := core) h₁, run_succ_of_step (M := core) h₂]
    exact ih ht

end

/-- Settles O54: `Indistinguishable` is kept by every pair of steps. -/
theorem unspecifiedBytesNeverReachHost : Obligations.UnspecifiedBytesNeverReachHost := by
  intro n s₁ s₂ hcanonical₁ hcanonical₂ hperm hsame
  obtain ⟨t₁, t₂, h₁, h₂, ht⟩ := Indistinguishable.run ⟨hcanonical₁, hcanonical₂, hperm, hsame⟩ n
  exact ⟨t₁, t₂, h₁, h₂, ht.same⟩

end Sys2Proof.Machine

/-! SUPPORT. Statements about permutation_memory: a sequence of writes, and the accesses of the two ports in one
micro-operation (20_memory.md R32 to R34, R36). -/

namespace Sys2Proof.Machine

/-! ### Writes in sequence (R33, R34) -/

/-- Settles O19, with the latest write split off. -/
theorem readReturnsLatestWrite : Obligations.ReadReturnsLatestWrite := by
  intro m u ws a
  induction ws using List.reverseRecOn with
  | nil => rfl
  | append_singleton ws p ih =>
    rw [List.foldl_append, List.foldl_cons, List.foldl_nil, Memory.read_write, List.reverse_append,
      List.reverse_singleton, List.singleton_append, List.find?_cons]
    by_cases h : a = p.1
    · simp [h]
    · simpa [h, Ne.symm h] using ih

/-! ### One access of each port (R32, R36) -/

theorem Memory.stored_drive (m : Memory) (p : PortSignals) (c : Byte) :
    Memory.stored (Memory.drive m p) c = if p.we = true ∧ c = p.addr then some p.wdata else Memory.stored m c := by
  unfold Memory.drive
  by_cases h : p.we = true
  · simp [h]
  · simp [h]

/-- Without a clash each location takes what a port writes to it. -/
theorem Memory.stored_cycle {p q : PortSignals} (h : portsClash p q = false) (m : Memory) (u : Byte → Byte)
    (c : Byte) : Memory.stored (Memory.cycle m u p q).mem c =
      if q.we = true ∧ c = q.addr then some q.wdata
      else if p.we = true ∧ c = p.addr then some p.wdata else Memory.stored m c := by
  simp only [Memory.cycle, h, Bool.false_eq_true, if_false, Memory.stored_drive]

/-- Ports clash at one address, to which port A writes. -/
theorem portA_writes_of_portsClash {p q : PortSignals} (h : portsClash p q = true) : p.we = true := by
  simp only [portsClash, Bool.and_eq_true] at h
  exact h.1.1.1

/-- A location that neither port writes stays, even where the ports clash. -/
theorem Memory.stored_cycle_of_untouched {p q : PortSignals} {c : Byte} (hp : p.we = true → c ≠ p.addr)
    (hq : q.we = true → c ≠ q.addr) (m : Memory) (u : Byte → Byte) :
    Memory.stored (Memory.cycle m u p q).mem c = Memory.stored m c := by
  rcases Bool.eq_false_or_eq_true (portsClash p q) with h | h
  · have hc := hp (portA_writes_of_portsClash h)
    simp [Memory.cycle, h, hc]
  · rw [Memory.stored_cycle h, if_neg fun hw => hq hw.1 hw.2, if_neg fun hw => hp hw.1 hw.2]

theorem portOwner_eq_rc4Ksa_iff {p : Phase} : portOwner p = some .rc4Ksa ↔ p = .ksaInit ∨ p = .ksaMix := by
  cases p <;> decide

theorem portOwner_eq_rc4Prga_iff {p : Phase} : portOwner p = some .rc4Prga ↔ p = .prgaStep := by
  cases p <;> decide

theorem portOwner_eq_peek_iff {p : Phase} : portOwner p = some .peek ↔ p = .access := by
  cases p <;> decide

theorem portSignals_idle {q : Sequencer} (h : q.block.phase = .idle) (c : Instr) :
    portSignals c q = (idlePort, idlePort) := by
  simp [portSignals, portOwner, h]

theorem portSignals_access {q : Sequencer} (h : q.block.phase = .access) (c : Instr) :
    portSignals c q = accessSignals c := by
  simp [portSignals, portOwner, h]

/-- Settles O21: what a port reads and writes is `rdata` and `drive`, and the phase decides who drives it. -/
theorem portsDoOneAccessForOneOwner : Obligations.PortsDoOneAccessForOneOwner := by
  refine ⟨fun m u p q => ⟨fun hp => Memory.rdata_of_read m u hp, fun hq => Memory.rdata_of_read m u hq,
    fun h c => Memory.stored_cycle h m u c, fun c hp hq => Memory.stored_cycle_of_untouched hp hq m u⟩,
    fun c q => ⟨portOwner_eq_rc4Ksa_iff, portOwner_eq_rc4Prga_iff, portOwner_eq_peek_iff,
      fun h => ⟨portSignals_idle h c, tick_idle h c⟩, ?_⟩⟩
  rintro a rfl h
  exact portSignals_access h _

end Sys2Proof.Machine

/-! SUPPORT. Statements about the key schedule and about one CRYPT: the source's permutation, the frames, the counter
TC, and the cases of a generation step (40_ksa.md R74 to R79, 41_prga.md R92, R97, R101, R103, 10_state.md R11 to
R16). -/

namespace Sys2Proof.Machine

/-! ### The key schedule (R74 to R79) -/

/-- Settles O25: the mixing loop is the source's, from the identity. -/
theorem ksaComputesSourcePermutation : Obligations.KsaComputesSourcePermutation := by
  intro s k h₁ h₂
  have hkey : (mod256 k.toNat).toNat = k.toNat := by
    rw [toNat_mod256]
    omega
  have hpmem := (keySchedule_completes h₁ h₂ s).pmem
  rw [hkey] at hpmem
  exact ⟨_, exec_ksa k s, hpmem⟩

theorem exec_schedule {i : Instr} (hi : i = .ksar ∨ ∃ k, i = .ksa k) (s : State) :
    ∃ k, exec i s = .next (keySchedule k s) := by
  rcases hi with rfl | ⟨k, rfl⟩
  · exact ⟨_, exec_ksar s⟩
  · exact ⟨_, exec_ksa k s⟩

/-- A key schedule leaves ERR where it completes, and PHASE where it is refused. -/
theorem keySchedule_frame (k : Nat) (s : State) :
    ((keySchedule k s).keyed = true → (keySchedule k s).err = s.err) ∧
    ((keySchedule k s).keyed = false → (keySchedule k s).phase = s.phase) := by
  rcases keySchedule_cases k s with ⟨hk, -⟩ | ⟨⟨h₁, h₂⟩, -⟩
  · have h := keySchedule_refuses hk s
    exact ⟨fun hkeyed => absurd (h.keyed.symm.trans hkeyed) (by decide), fun _ => h.phase⟩
  · have h := keySchedule_completes h₁ h₂ s
    exact ⟨fun _ => h.err, fun hkeyed => absurd (h.keyed.symm.trans hkeyed) (by decide)⟩

/-- Settles O30. -/
theorem keyScheduleFrame : Obligations.KeyScheduleFrame := by
  intro s t i hi h
  obtain ⟨k, hk⟩ := exec_schedule hi s
  rw [hk, next_inj] at h
  subst h
  exact ⟨keySchedule_keeps_inputs k s, keySchedule_rnd k s, keySchedule_frame k s⟩

theorem tableEntry_zero (key : Byte) : tableEntry key 0 = 0 := Nat.zero_mod _

/-- TC advances with the loop index: one more, or back to 0 at KEY (R79). -/
theorem nextTc_tableEntry {key : Byte} (hkey : key ≠ 0#8) (n : Nat) :
    nextTc key (mod256 (tableEntry key n)) = mod256 (tableEntry key (n + 1)) := by
  have hlt := tableEntry_lt hkey n
  have hkey' := key.isLt
  rw [nextTc, toNat_mod256, Nat.mod_eq_of_lt (by omega)]
  unfold tableEntry at hlt ⊢
  rw [← Nat.mod_add_mod n key.toNat 1]
  split
  · rw [‹n % key.toNat + 1 = key.toNat›, Nat.mod_self]
    rfl
  · rw [Nat.mod_eq_of_lt (a := n % key.toNat + 1) (by omega)]

/-- TC after `n` iterations is T(n). -/
theorem nextTc_iterate {key : Byte} (hkey : key ≠ 0#8) (n : Nat) :
    (nextTc key)^[n] 0#8 = mod256 (tableEntry key n) := by
  induction n with
  | zero => rw [tableEntry_zero]; rfl
  | succ n ih => rw [Function.iterate_succ_apply', ih, nextTc_tableEntry hkey]

theorem tableEntry_lt_256 {key : Byte} (hkey : key ≠ 0#8) (n : Nat) : tableEntry key n < 256 :=
  (tableEntry_lt hkey n).trans key.isLt

/-- Settles O31. -/
theorem counterGeneratesTable : Obligations.CounterGeneratesTable := by
  intro key n hkey
  rw [nextTc_iterate hkey, toNat_mod256, Nat.mod_eq_of_lt (tableEntry_lt_256 hkey n)]

/-! ### One CRYPT (R92, R97, R101, R103) -/

/-- The symbol reaches the response only. -/
theorem prgaStep_withoutPorts (d d' : Byte) (s : State) :
    (prgaStep d s).withoutPorts = (prgaStep d' s).withoutPorts := rfl

theorem keystreamByte_prgaStep (d d' : Byte) (s : State) :
    keystreamByte (prgaStep d s) = keystreamByte (prgaStep d' s) := rfl

/-- Settles O37: the symbol 0 leaves the keystream byte as it is, and no other field takes the symbol. -/
theorem cryptZeroReturnsKeystream : Obligations.CryptZeroReturnsKeystream := by
  intro s d hkeyed
  refine ⟨_, _, keystreamByte (prgaStep 0#8 s), exec_crypt_keyed hkeyed 0#8, exec_crypt_keyed hkeyed d, rfl, ?_, ?_,
    prgaStep_withoutPorts 0#8 d s⟩
  · rw [prgaStep_rsp, BitVec.xor_zero]
  · rw [prgaStep_rsp, keystreamByte_prgaStep d 0#8]

theorem readS_prgaStep_of_coinciding {d : Byte} {s : State} (h : (prgaStep d s).i = (prgaStep d s).j) (a : Byte) :
    readS (prgaStep d s) a = readS s a := by
  rw [readS_prgaStep, ← h]
  split
  · rw [‹a = (prgaStep d s).i›]
  · rfl

/-- Settles O38: the reads after the swap are those of the two locations exchanged. -/
theorem cryptCoincidingAddresses : Obligations.CryptCoincidingAddresses := by
  intro s d hkeyed
  refine ⟨_, _, _, exec_crypt_keyed hkeyed d, prgaStep_rsp d s, rfl, rfl, fun hij => ?_, fun ht => ?_, fun ht => ?_⟩
  · refine ⟨readS_prgaStep_of_coinciding hij, ?_⟩
    rw [readS_prgaStep_of_coinciding hij, readS_prgaStep_of_coinciding hij, ← hij, Nat.two_mul]
  · rw [keystreamByte, ht, readS_prgaStep_i]
  · rw [keystreamByte, ht, readS_prgaStep_j]

/-- Settles O39: the cursor is a sum modulo 256. -/
theorem cryptCursorWraps : Obligations.CryptCursorWraps := by
  intro s d hkeyed
  refine ⟨_, exec_crypt_keyed hkeyed d, prgaStep_err d s, (prgaStep_keyed d s).trans hkeyed, prgaStep_key d s,
    fun hi => ?_, fun hi => ?_⟩
  · have hwrap : (prgaStep d s).i = 0#8 := by rw [prgaStep_i, hi]; rfl
    exact ⟨hwrap, by rw [prgaStep_j, hwrap]⟩
  · have hne : s.i.toNat ≠ 255 := fun h => hi (BitVec.eq_of_toNat_eq h)
    have hlt := s.i.isLt
    rw [prgaStep_i, toNat_mod256]
    omega

/-- Settles O40: no other field is written, and S changes by one swap. -/
theorem cryptFrame : Obligations.CryptFrame := by
  intro s t d hkeyed h
  rw [exec_crypt_keyed hkeyed, next_inj] at h
  subst h
  refine ⟨rfl, rfl, rfl, rfl, rfl, rfl, rfl, rfl, fun a hi hj => ?_⟩
  rw [readS_prgaStep]
  exact (if_neg hj).trans (if_neg hi)

/-! ### Who writes the registers (R11, R14 to R16) -/

/-- An error other than INVALID_ARGUMENT writes none of the registers and memories a command may write. -/
theorem raise_keeps_registers {e : ErrorKind} (he : e ≠ .invalidArgument) (s : State) :
    (raise e s).key = s.key ∧ (raise e s).t = s.t ∧ (raise e s).tc = s.tc ∧ (raise e s).i = s.i ∧
      (raise e s).j = s.j ∧ (raise e s).pmem = s.pmem := by
  cases e with
  | invalidArgument => exact absurd rfl he
  | notKeyed => exact ⟨rfl, rfl, rfl, rfl, rfl, rfl⟩
  | illegalCommand => exact ⟨rfl, rfl, rfl, rfl, rfl, rfl⟩

/-- Settles O50, command by command. -/
theorem registersWrittenOnlyByTheirCommands : Obligations.RegistersWrittenOnlyByTheirCommands := by
  intro i s t h hksar hksa hclr
  obtain ⟨hkey, htable, htc, hregs⟩ := raise_keeps_registers (e := .notKeyed) (by decide) s
  cases i with
  | nop => cases h; exact ⟨rfl, rfl, rfl, fun _ => ⟨rfl, rfl, rfl⟩⟩
  | ksa k => exact absurd rfl (hksa k)
  | ksar => exact absurd rfl hksar
  | crypt d =>
    rw [exec_crypt, next_inj] at h
    subst h
    split
    · exact ⟨rfl, rfl, rfl, fun hd => absurd rfl (hd d)⟩
    · exact ⟨hkey, htable, htc, fun _ => hregs⟩
  | peek a =>
    rw [exec_peek, next_inj] at h
    subst h
    split
    · exact ⟨rfl, rfl, rfl, fun _ => ⟨rfl, rfl, rfl⟩⟩
    · exact ⟨hkey, htable, htc, fun _ => hregs⟩
  | rdreg r => cases h; exact ⟨rfl, rfl, rfl, fun _ => ⟨rfl, rfl, rfl⟩⟩
  | clr => exact absurd rfl hclr

end Sys2Proof.Machine

/-! SUPPORT. Statements about the rc4 call: the source's rc4, a refused key, and a drawn key
(43_host_interface.md R136, R137). -/

namespace Sys2Proof.Machine

/-- Settles O56: the block goes through the source's states, position by position. -/
theorem callComputesSourceRc4 : Obligations.CallComputesSourceRc4 := by
  intro s k r ds hidle h₁ h₂
  obtain ⟨t, hrun, -⟩ := runCommands_callWithKey hidle h₁ h₂ r ds
  exact ⟨t, hrun⟩

/-! ### A refused key -/

/-- A block that is not keyed answers NOT_KEYED to every symbol of a stream. -/
theorem runCommands_streamWords_notKeyed {s : State} (hidle : s.phase = .idle) (hkeyed : s.keyed = false) (r : Byte)
    (ds : List Byte) : ∃ t, runCommands (streamWords r ds) s = some (t, ds.map fun _ => 0x0200#16) := by
  induction ds generalizing s with
  | nil => exact ⟨s, rfl⟩
  | cons d ds ih =>
    have hstep : transact (encode (.crypt d)) r s = some (raise .notKeyed { s with rnd := some r }, 0x0200#16) :=
      transact_of_exec hidle (decode_encode_crypt d) (exec_crypt_notKeyed (s := { s with rnd := some r }) hkeyed d) rfl
    obtain ⟨t, ht⟩ := ih (s := raise .notKeyed { s with rnd := some r }) hidle hkeyed
    refine ⟨t, ?_⟩
    rw [streamWords_cons, runCommands_cons hstep, ht]
    rfl

/-- Settles O57: the refused key leaves the block idle and not keyed. -/
theorem callWithBadKeyFails : Obligations.CallWithBadKeyFails := by
  intro s k r ds hidle hk
  have h := keySchedule_refuses hk { s with rnd := some r }
  have hksa : transact (encode (.ksa k)) r s = some (keySchedule k.toNat { s with rnd := some r }, 0x0100#16) :=
    transact_of_exec hidle (decode_encode_ksa k) (exec_ksa k _) h.rsp
  obtain ⟨t, ht⟩ := runCommands_streamWords_notKeyed (h.phase.trans hidle) h.keyed r ds
  refine ⟨t, ?_⟩
  rw [callWithKey, runCommands_cons hksa, ht]
  rfl

/-! ### A drawn key -/

/-- KSAR is answered as KSA with the byte at the `rnd` port. -/
theorem transact_ksar {s : State} (hidle : s.phase = .idle) (r : Byte) :
    transact (encode .ksar) r s = transact (encode (.ksa (r.setWidth 12))) r s := by
  have hexec := exec_ksa_drawnByte { s with rnd := some r }
  rw [drawnByte_sampled] at hexec
  rw [transact, transact, step_present_ok hidle r (decode_encode .ksar),
    step_present_ok hidle r (decode_encode (.ksa (r.setWidth 12))), hexec]

/-- The two calls differ in their first command only. -/
theorem runCommands_callWithDraw {s : State} (hidle : s.phase = .idle) (r : Byte) (ds : List Byte) :
    runCommands (callWithDraw r ds) s = runCommands (callWithKey (r.setWidth 12) r ds) s := by
  rw [callWithDraw, callWithKey, runCommands, runCommands, transact_ksar hidle]

/-- Settles O58: the call with the drawn key answers that key first. -/
theorem drawnKeyCallEqualsKeyedCall : Obligations.DrawnKeyCallEqualsKeyedCall := by
  intro s r ds hidle hr
  obtain ⟨h₁, h₂⟩ := byte_ne_zero_iff.mp hr
  have hnum : (r.setWidth 12).toNat = r.toNat := BitVec.toNat_setWidth_of_le (by decide)
  have hbyte : (r.setWidth 12).setWidth 8 = r := by
    rw [BitVec.setWidth_setWidth_of_le _ (by decide), BitVec.setWidth_eq]
  obtain ⟨t, hrun, -⟩ := runCommands_callWithKey (k := r.setWidth 12) hidle (hnum ▸ h₁) (hnum ▸ h₂) r ds
  rw [hbyte] at hrun
  exact ⟨t, _, (runCommands_callWithDraw hidle r ds).trans hrun, hrun⟩

end Sys2Proof.Machine

/-! SUPPORT. The statement about the sequencer: its micro-operations add up to the meaning of the command
(10_state.md R20, R21, 40_ksa.md R74 to R82, 70_reset_and_hazards.md R193). -/

namespace Sys2Proof.Machine

/-! ### Micro-operations of a busy block -/

/-- The block comes from `q` to `q'` in `n` micro-operations, and is busy before each of them. -/
def BusyRun (c : Instr) (n : Nat) (q q' : Sequencer) : Prop :=
  ticks c n q = q' ∧ ∀ m, m < n → busyPin (ticks c m q).block = true

theorem busyPin_of_phase_ne_idle {s : State} (h : s.phase ≠ .idle) : busyPin s = true := by
  simp [busyPin, h]

theorem BusyRun.refl (c : Instr) (q : Sequencer) : BusyRun c 0 q q :=
  ⟨rfl, fun m hm => absurd hm (Nat.not_lt_zero m)⟩

theorem BusyRun.trans {c : Instr} {m n : Nat} {q q' q'' : Sequencer} (h : BusyRun c m q q')
    (h' : BusyRun c n q' q'') : BusyRun c (m + n) q q'' := by
  obtain ⟨rfl, hbusy⟩ := h
  obtain ⟨rfl, hbusy'⟩ := h'
  refine ⟨ticks_add c m n q, fun k hk => ?_⟩
  rcases Nat.lt_or_ge k m with hlt | hge
  · exact hbusy k hlt
  · obtain ⟨j, rfl⟩ := Nat.exists_eq_add_of_le hge
    rw [ticks_add]
    exact hbusy' j (by omega)

theorem BusyRun.tick {c : Instr} {q q' : Sequencer} (hq : q.block.phase ≠ .idle) (h : tick c q = q') :
    BusyRun c 1 q q' := by
  refine ⟨h, fun m hm => ?_⟩
  obtain rfl : m = 0 := by omega
  exact busyPin_of_phase_ne_idle hq

/-- Runs of one length through a sequence of states follow on each other. -/
theorem BusyRun.iterate {c : Instr} {k : Nat} {q : Nat → Sequencer} {n : Nat}
    (h : ∀ i, i < n → BusyRun c k (q i) (q (i + 1))) : BusyRun c (k * n) (q 0) (q n) := by
  induction n with
  | zero => exact BusyRun.refl c (q 0)
  | succ n ih => exact (ih fun i hi => h i (by omega)).trans (h n (by omega))

/-! ### Phase KSA_INIT (R74, R45) -/

/-- S after the first `n` identity writes. -/
def identityPrefix (m : Memory) (n : Nat) : Memory :=
  (List.range n).foldl (fun m a => Memory.write m (mod256 a) (mod256 a)) m

theorem identityPrefix_succ (m : Memory) (n : Nat) :
    identityPrefix m (n + 1) = Memory.write (identityPrefix m n) (mod256 n) (mod256 n) := by
  simp [identityPrefix, List.range_succ]

theorem identityPrefix_256 (m : Memory) : identityPrefix m 256 = identityWrites m := by
  unfold identityWrites
  rfl

/-- T after its first `n` entries are written, where it is stored. -/
def tablePrefix (key : Byte) (t : Memory) : Nat → Memory
  | 0 => t
  | n + 1 =>
    if Config.storesTable then Memory.write (tablePrefix key t n) (mod256 n) (mod256 (tableEntry key n))
    else tablePrefix key t n

/-- A stored T holds T(a) at each written address. -/
theorem stored_tablePrefix (hstores : Config.storesTable = true) (key : Byte) (t : Memory) {n : Nat} (hn : n ≤ 256)
    {a : Byte} (ha : a.toNat < n) : Memory.stored (tablePrefix key t n) a = some (mod256 (tableEntry key a.toNat)) := by
  induction n with
  | zero => omega
  | succ n ih =>
    rw [tablePrefix, if_pos hstores, Memory.stored_write]
    by_cases h : a = mod256 n
    · have hval : a.toNat = n := by rw [h, toNat_mod256, Nat.mod_eq_of_lt (by omega)]
      rw [if_pos h, hval]
    · have hne : a.toNat ≠ n := fun hval => h (by rw [← hval, mod256_toNat])
      rw [if_neg h]
      exact ih (by omega) (by omega)

/-- The block in KSA_INIT, after `n` identity writes. -/
def initState (key : Byte) (s : State) (n : Nat) : State :=
  { s with
    phase := .ksaInit
    key := key
    i := mod256 n
    pmem := identityPrefix s.pmem n
    t := tablePrefix key s.t n }

/-! ### Phase KSA_MIX (R76, R79, R82) -/

/-- (S, J) after the first `n` mixing iterations. -/
def mixPrefix (key : Byte) (s : State) (n : Nat) : Memory × Byte :=
  (List.range n).foldl (mixIteration (Config.unwrittenByte s.freeIx) key) (identityWrites s.pmem, 0#8)

theorem mixPrefix_256 (key : Byte) (s : State) :
    mixPrefix key s 256 = mixLoop (Config.unwrittenByte s.freeIx) key (identityWrites s.pmem) := by
  unfold mixLoop
  rfl

/-- The block in KSA_MIX, after `n` iterations. -/
def mixState (key : Byte) (s : State) (n : Nat) : State :=
  { s with
    phase := .ksaMix
    key := key
    i := mod256 n
    j := (mixPrefix key s n).2
    pmem := (mixPrefix key s n).1
    t := tablePrefix key s.t 256
    tc := mod256 (tableEntry key n) }

theorem mod256_ne_255 {n : Nat} (hn : n < 255) : mod256 n ≠ 255#8 := fun h => by
  have := congrArg BitVec.toNat h
  rw [toNat_mod256, BitVec.toNat_ofNat] at this
  omega

theorem mod256_succ {n : Nat} (hn : n < 256) : mod256 ((mod256 n).toNat + 1) = mod256 (n + 1) := by
  rw [toNat_mod256, Nat.mod_eq_of_lt hn]

theorem tick_initState {n : Nat} (hn : n < 255) (c : Instr) (key : Byte) (s : State) :
    tick c ⟨initState key s n, .readI⟩ = ⟨initState key s (n + 1), .readI⟩ := by
  rw [tick_ksaInit rfl]
  have hi : (mod256 n).toNat = n := by rw [toNat_mod256, Nat.mod_eq_of_lt (by omega)]
  simp only [initTick, initState, if_neg (mod256_ne_255 hn), hi, tablePrefix, identityPrefix_succ]

/-- After the last identity write the mixing loop starts, with I, J and TC at 0. -/
theorem tick_initState_last (c : Instr) (key : Byte) (s : State) :
    tick c ⟨initState key s 255, .readI⟩ = ⟨mixState key s 0, .readI⟩ := by
  have hpmem : identityWrites s.pmem = Memory.write (identityPrefix s.pmem 255) 255#8 255#8 :=
    (identityPrefix_256 s.pmem).symm.trans (identityPrefix_succ s.pmem 255)
  have htable : tablePrefix key s.t 256 = if Config.storesTable then
      Memory.write (tablePrefix key s.t 255) 255#8 (mod256 (tableEntry key 255)) else tablePrefix key s.t 255 := rfl
  have hi : mod256 255 = 255#8 := rfl
  have hzero : mod256 0 = 0#8 := rfl
  have hmix : mixPrefix key s 0 = (identityWrites s.pmem, 0#8) := rfl
  have hval : (255#8).toNat = 255 := rfl
  rw [tick_ksaInit rfl]
  simp only [initTick, initState, mixState, hi, hzero, hval, if_true, hmix, hpmem, htable, tableEntry_zero]

/-- Both implementations of T give T(I) (R13, R45). -/
theorem tableOperand_mixState {key : Byte} (hkey : key ≠ 0#8) (s : State) {n : Nat} (hn : n < 256) :
    tableOperand (mixState key s n) = tableEntry key n := by
  have hentry : (mod256 (tableEntry key n)).toNat = tableEntry key n := by
    rw [toNat_mod256, Nat.mod_eq_of_lt (tableEntry_lt_256 hkey n)]
  have hi : (mod256 n).toNat = n := by rw [toNat_mod256, Nat.mod_eq_of_lt hn]
  unfold tableOperand
  split
  · have hstored := stored_tablePrefix ‹_› key s.t (Nat.le_refl 256) (a := mod256 n) (by omega)
    rw [hi] at hstored
    rw [mixState, Memory.read_of_stored _ hstored, hentry]
  · exact hentry

/-- The three micro-operations of iteration `n`, up to the end of the iteration. -/
theorem ticks_mixState {key : Byte} (hkey : key ≠ 0#8) (c : Instr) (s : State) {n : Nat} (hn : n < 256) :
    ticks c 3 ⟨mixState key s n, .readI⟩ =
      ⟨endIteration { mixState key s n with
        j := (mixPrefix key s (n + 1)).2
        pmem := (mixPrefix key s (n + 1)).1 }, .readI⟩ := by
  rw [ticks_ksaMix rfl, tableOperand_mixState hkey s hn, mixPrefix, mixIterations_succ]
  rfl

/-- An iteration but the last is followed by the next one. -/
theorem ticks_mixState_next {key : Byte} (hkey : key ≠ 0#8) (c : Instr) (s : State) {n : Nat} (hn : n < 255) :
    ticks c 3 ⟨mixState key s n, .readI⟩ = ⟨mixState key s (n + 1), .readI⟩ := by
  have hi : mod256 ((mod256 n).toNat + 1) = mod256 (n + 1) := mod256_succ (by omega)
  rw [ticks_mixState hkey c s (by omega)]
  simp only [endIteration, mixState, if_neg (mod256_ne_255 hn), hi, nextTc_tableEntry hkey]

/-- The last iteration completes the schedule. -/
theorem ticks_mixState_last {k : Nat} (hkey : mod256 k ≠ 0#8) (c : Instr) (s : State) :
    ticks c 3 ⟨mixState (mod256 k) s 255, .readI⟩ = ⟨completeSchedule (mixPhase (initPhase k s)), .readI⟩ := by
  have hi : (mixState (mod256 k) s 255).i = 255#8 := rfl
  rw [ticks_mixState hkey c s (by decide), mixPrefix_256, endIteration, if_pos hi]
  rfl

/-- KSA_MIX lasts through the reads of an iteration. -/
theorem busyRun_iteration {c : Instr} {s : State} {q : Sequencer} (hs : s.phase = .ksaMix)
    (h : ticks c 3 ⟨s, .readI⟩ = q) : BusyRun c 3 ⟨s, .readI⟩ q := by
  have hphase : ∀ m, m < 3 → (ticks c m ⟨s, .readI⟩).block.phase = .ksaMix := fun m hm => by
    interval_cases m
    · exact hs
    · simp [ticks, tick, hs, mixTick]
    · simp [ticks, tick, hs, mixTick]
  exact ⟨h, fun m hm => busyPin_of_phase_ne_idle (by simp [hphase m hm])⟩

/-- PRGA_STEP lasts through the reads and the swap of a generation step. -/
theorem busyRun_prgaStep (d : Byte) {s : State} (hs : s.phase = .prgaStep) :
    BusyRun (.crypt d) 4 ⟨s, .readI⟩ ⟨prgaStep d s, .readI⟩ := by
  have hphase : ∀ m, m < 4 → (ticks (.crypt d) m ⟨s, .readI⟩).block.phase = .prgaStep := fun m hm => by
    interval_cases m
    · exact hs
    · simp [ticks, tick, hs, prgaTick]
    · simp [ticks, tick, hs, prgaTick]
    · simp [ticks, tick, hs, prgaTick]
  exact ⟨ticks_prgaStep hs d, fun m hm => busyPin_of_phase_ne_idle (by simp [hphase m hm])⟩

/-- ACCESS is one micro-operation. -/
theorem busyRun_access (c : Instr) {s : State} (hs : s.phase = .access) :
    BusyRun c 1 ⟨s, .readI⟩ ⟨accessTick c (portCycle c ⟨s, .readI⟩) s, .readI⟩ :=
  BusyRun.tick (by simp [hs]) (by simp [tick, hs])

/-! ### Every command -/

/-- KSA_INIT takes one micro-operation for each identity write. -/
theorem busyRun_ksaInit (c : Instr) (key : Byte) (s : State) :
    BusyRun c 256 ⟨initState key s 0, .readI⟩ ⟨mixState key s 0, .readI⟩ := by
  have hwrites : BusyRun c (1 * 255) ⟨initState key s 0, .readI⟩ ⟨initState key s 255, .readI⟩ :=
    BusyRun.iterate (q := fun n => ⟨initState key s n, .readI⟩) fun n hn =>
      BusyRun.tick (by simp [initState]) (tick_initState hn c key s)
  exact BusyRun.trans (n := 1) hwrites (BusyRun.tick (by simp [initState]) (tick_initState_last c key s))

/-- KSA_MIX takes three micro-operations for each iteration. -/
theorem busyRun_ksaMix {k : Nat} (hkey : mod256 k ≠ 0#8) (c : Instr) (s : State) :
    BusyRun c 768 ⟨mixState (mod256 k) s 0, .readI⟩ ⟨completeSchedule (mixPhase (initPhase k s)), .readI⟩ := by
  have hiterations : BusyRun c (3 * 255) ⟨mixState (mod256 k) s 0, .readI⟩ ⟨mixState (mod256 k) s 255, .readI⟩ :=
    BusyRun.iterate (q := fun n => ⟨mixState (mod256 k) s n, .readI⟩) fun n hn =>
      busyRun_iteration rfl (ticks_mixState_next hkey c s hn)
  exact BusyRun.trans (n := 3) hiterations (busyRun_iteration rfl (ticks_mixState_last hkey c s))

theorem busyRun_schedule {k : Nat} (h₁ : 1 ≤ k) (h₂ : k ≤ 255) (c : Instr) (s : State) :
    BusyRun c 1024 ⟨startSchedule k s, .readI⟩ ⟨keySchedule k s, .readI⟩ := by
  have hkey : mod256 k ≠ 0#8 := byte_ne_zero_iff.mpr (by rw [toNat_mod256]; omega)
  have hstart : startSchedule k s = initState (mod256 k) s 0 := by
    rw [startSchedule, if_neg (by omega)]
    rfl
  rw [hstart, keySchedule_valid h₁ h₂]
  exact BusyRun.trans (m := 256) (n := 768) (busyRun_ksaInit c (mod256 k) s) (busyRun_ksaMix hkey c s)

/-- The command is done after at most 1024 micro-operations, and the block is idle then and busy before. -/
def Refines (i : Instr) (s t : State) : Prop :=
  ∃ n, (ticks i n (startCommand i s)).block = t ∧ t.phase = .idle ∧ n ≤ 1024 ∧
    ∀ m, m < n → busyPin (ticks i m (startCommand i s)).block = true

theorem BusyRun.refines {i : Instr} {n : Nat} {s : State} {q : Sequencer} (h : BusyRun i n (startCommand i s) q)
    (hn : n ≤ 1024) (hidle : q.block.phase = .idle) : Refines i s q.block :=
  ⟨n, congrArg Sequencer.block h.1, hidle, hn, h.2⟩

/-- A command that is done as it starts. -/
theorem refines_at_once {i : Instr} {s : State} (hidle : (enterPhase i s).phase = .idle) :
    Refines i s (enterPhase i s) :=
  (BusyRun.refl i (startCommand i s)).refines (by decide) hidle

theorem refines_schedule {i : Instr} {k : Nat} {s : State} (hs : s.phase = .idle)
    (hstart : enterPhase i s = startSchedule k s) : Refines i s (keySchedule k s) := by
  rcases keySchedule_cases k s with ⟨hk, h⟩ | ⟨⟨h₁, h₂⟩, -⟩
  · have hraise : enterPhase i s = raise .invalidArgument s := by rw [hstart, startSchedule, if_pos hk]
    rw [h, ← hraise]
    exact refines_at_once (by rw [hraise, raise_phase, hs])
  · have hrun := busyRun_schedule h₁ h₂ i s
    rw [← hstart] at hrun
    exact hrun.refines (Nat.le_refl 1024) (keySchedule_keeps_idle k hs)

theorem refines_crypt {d : Byte} {s : State} (hkeyed : s.keyed = true) : Refines (.crypt d) s (prgaStep d s) := by
  have hstart : startCommand (.crypt d) s = ⟨{ s with phase := .prgaStep }, .readI⟩ := by
    rw [startCommand, enterPhase, if_pos hkeyed]
  have hrun := busyRun_prgaStep d (s := { s with phase := .prgaStep }) rfl
  rw [← hstart] at hrun
  exact hrun.refines (by decide) (prgaStep_phase d s)

theorem refines_peek {a : Byte} {s : State} (hkeyed : s.keyed = true) :
    Refines (.peek a) s (endAccess (readS s a) s) := by
  have hstart : startCommand (.peek a) s = ⟨{ s with phase := .access }, .readI⟩ := by
    rw [startCommand, enterPhase, if_pos hkeyed]
  have hdone : accessTick (.peek a) (portCycle (.peek a) ⟨{ s with phase := .access }, .readI⟩)
      { s with phase := .access } = endAccess (readS s a) s := by
    rw [portCycle, portSignals_access rfl]
    rfl
  have hrun := busyRun_access (.peek a) (s := { s with phase := .access }) rfl
  rw [hdone, ← hstart] at hrun
  exact hrun.refines (by decide) rfl

theorem refines_rdreg (r : CtrlReg) (s : State) : Refines (.rdreg r) s (endAccess (readCtrl r s) s) := by
  have hread : readCtrl r { s with phase := .access } = readCtrl r s := by cases r <;> rfl
  have hrun := busyRun_access (.rdreg r) (s := { s with phase := .access }) rfl
  rw [accessTick, hread] at hrun
  exact hrun.refines (i := .rdreg r) (by decide) rfl

/-- A CRYPT or PEEK to a block that is not keyed is refused as it starts. -/
theorem refines_notKeyed {i : Instr} {s : State} (hs : s.phase = .idle) (hstart : enterPhase i s = raise .notKeyed s) :
    Refines i s (raise .notKeyed s) :=
  hstart ▸ refines_at_once (by rw [hstart, raise_phase, hs])

theorem exec_refined {i : Instr} {s t : State} (hs : s.phase = .idle) (h : exec i s = .next t) : Refines i s t := by
  cases i with
  | nop => cases h; exact refines_at_once hs
  | ksa k => cases h; exact refines_schedule hs rfl
  | ksar => cases h; exact refines_schedule hs rfl
  | crypt d =>
    rw [exec_crypt, next_inj] at h
    subst h
    split
    · exact refines_crypt ‹_›
    · exact refines_notKeyed hs (if_neg ‹_›)
  | peek a =>
    rw [exec_peek, next_inj] at h
    subst h
    split
    · exact refines_peek ‹_›
    · exact refines_notKeyed hs (if_neg ‹_›)
  | rdreg r => cases h; exact refines_rdreg r s
  | clr => cases h; exact refines_at_once hs

/-- Settles O33, command by command. -/
theorem sequencerRefinesCommands : Obligations.SequencerRefinesCommands := by
  intro i s hs
  obtain ⟨t, ht⟩ := exec_next i s
  obtain ⟨n, hblock, hidle, hn, hbusy⟩ := exec_refined hs ht
  exact ⟨n, t, ht, hblock, hidle, hn, hbusy⟩

end Sys2Proof.Machine
